-- ==== Sys2Proof/Word.lean ====
section
/-! DEFINITION. The word types of the machine (R6, R10, R13): every value is an unsigned number of 1, 4, 8, 12 or 16 bits. -/

namespace Sys2Proof

/-- A memory cell, a V register, a timer, an immediate `kk` (R10, R40, R67). -/
abbrev Byte := BitVec 8

/-- The program counter, the index register, a stack entry, an instruction word (R13, R14, R16, R60). -/
abbrev Word := BitVec 16

/-- The index of a V register: the 4-bit fields `x` and `y` (R61, R67). -/
abbrev Reg := BitVec 4

/-- The address immediate `nnn`, 12 bits (R61, R67). -/
abbrev Addr12 := BitVec 12

/-- The 64 x 32 pixels, one bit each: row `r` is a word whose bit `c` is the pixel in column `c` (R20, R57). -/
abbrev Framebuffer := Vector (BitVec 64) 32

/-- The 16 key levels, bit `i` for key `i`, 1 for down (R25, R138). -/
abbrev Keypad := BitVec 16

end Sys2Proof
end

