-- ==== Sys2Proof/Syntax.lean ====
section
/-! DEFINITION. The instructions: one constructor per row of the opcode table, in its order (R63). -/

namespace Sys2Proof

/-- The 34 instructions of R63.  Operands are the fields of R61 as R67 says they are used: `x` and `y` name registers,
`kk` is a byte, `nnn` a 12-bit address, and the sprite height `n` is a count.  `WellFormed.lean` bounds the count. -/
inductive Instr where
  /-- `00E0` CLS (R125) -/
  | cls
  /-- `00EE` RET (R90) -/
  | ret
  /-- `1nnn` JP nnn (R91) -/
  | jp (nnn : Addr12)
  /-- `2nnn` CALL nnn (R92) -/
  | call (nnn : Addr12)
  /-- `3xkk` SE Vx, kk (R93) -/
  | seImm (x : Reg) (kk : Byte)
  /-- `4xkk` SNE Vx, kk (R94) -/
  | sneImm (x : Reg) (kk : Byte)
  /-- `5xy0` SE Vx, Vy (R95) -/
  | seReg (x y : Reg)
  /-- `6xkk` LD Vx, kk (R100) -/
  | ldImm (x : Reg) (kk : Byte)
  /-- `7xkk` ADD Vx, kk (R101) -/
  | addImm (x : Reg) (kk : Byte)
  /-- `8xy0` LD Vx, Vy (R102) -/
  | ldReg (x y : Reg)
  /-- `8xy1` OR Vx, Vy (R103) -/
  | orReg (x y : Reg)
  /-- `8xy2` AND Vx, Vy (R104) -/
  | andReg (x y : Reg)
  /-- `8xy3` XOR Vx, Vy (R105) -/
  | xorReg (x y : Reg)
  /-- `8xy4` ADD Vx, Vy (R106) -/
  | addReg (x y : Reg)
  /-- `8xy5` SUB Vx, Vy (R107) -/
  | subReg (x y : Reg)
  /-- `8xy6` SHR Vx, Vy (R108) -/
  | shr (x y : Reg)
  /-- `8xy7` SUBN Vx, Vy (R109) -/
  | subnReg (x y : Reg)
  /-- `8xyE` SHL Vx, Vy (R110) -/
  | shl (x y : Reg)
  /-- `9xy0` SNE Vx, Vy (R96) -/
  | sneReg (x y : Reg)
  /-- `Annn` LD I, nnn (R115) -/
  | ldI (nnn : Addr12)
  /-- `Bnnn` JP V0, nnn (R97) -/
  | jpV0 (nnn : Addr12)
  /-- `Cxkk` RND Vx, kk (R111) -/
  | rnd (x : Reg) (kk : Byte)
  /-- `Dxyn` DRW Vx, Vy, n (R126) -/
  | drw (x y : Reg) (n : Nat)
  /-- `Ex9E` SKP Vx (R135) -/
  | skp (x : Reg)
  /-- `ExA1` SKNP Vx (R136) -/
  | sknp (x : Reg)
  /-- `Fx07` LD Vx, DT (R140) -/
  | ldVxDT (x : Reg)
  /-- `Fx0A` LD Vx, K (R137) -/
  | ldVxK (x : Reg)
  /-- `Fx15` LD DT, Vx (R141) -/
  | ldDTVx (x : Reg)
  /-- `Fx18` LD ST, Vx (R142) -/
  | ldSTVx (x : Reg)
  /-- `Fx1E` ADD I, Vx (R116) -/
  | addI (x : Reg)
  /-- `Fx29` LD F, Vx (R117) -/
  | ldF (x : Reg)
  /-- `Fx33` LD B, Vx (R118) -/
  | ldB (x : Reg)
  /-- `Fx55` LD [I], Vx (R119) -/
  | storeRegs (x : Reg)
  /-- `Fx65` LD Vx, [I] (R120) -/
  | loadRegs (x : Reg)
  deriving DecidableEq, Repr

end Sys2Proof
end

