-- ==== Sys2Proof/Decode.lean ====
section
/-! DEFINITION. The decoder (R60 to R68), the encoder written from the same table, and the table itself (R63). -/

namespace Sys2Proof

/-- Why a word is no instruction.  It is not illegal and does not stop the machine: `step` runs it as the reported
no-op of R85. -/
inductive Reject where
  /-- The word matches no row of the opcode table (R65). -/
  | unknownWord (w : Word)
  deriving DecidableEq, Repr

/-! ## The fields of an instruction word (R61) -/

/-- `op = w[15:12]` -/
def opOf (w : Word) : BitVec 4 := w.extractLsb' 12 4
/-- `x = w[11:8]` -/
def xOf (w : Word) : Reg := w.extractLsb' 8 4
/-- `y = w[7:4]` -/
def yOf (w : Word) : Reg := w.extractLsb' 4 4
/-- `n = w[3:0]` -/
def nOf (w : Word) : BitVec 4 := w.extractLsb' 0 4
/-- `kk = w[7:0]` -/
def kkOf (w : Word) : Byte := w.extractLsb' 0 8
/-- `nnn = w[11:0]` -/
def nnnOf (w : Word) : Addr12 := w.extractLsb' 0 12

/-- The word of two consecutive cells: the byte at the lower address is the high byte (R42). -/
def wordOfBytes (hi lo : Byte) : Word := hi ++ lo

/-- The byte stored at the lower address (R42). -/
def highByte (w : Word) : Byte := w.extractLsb' 8 8
/-- The byte stored at the higher address (R42). -/
def lowByte (w : Word) : Byte := w.extractLsb' 0 8

/-! ## The decoder -/

/-- Family 0: both words are matched on all 16 bits (R64). -/
def decode0 (w : Word) : Except Reject Instr :=
  if w = 0x00E0#16 then .ok .cls
  else if w = 0x00EE#16 then .ok .ret
  else .error (.unknownWord w)

/-- Family 8: decided by `n` (R64). -/
def decode8 (w : Word) : Except Reject Instr :=
  match (nOf w).toNat with
  | 0x0 => .ok (.ldReg (xOf w) (yOf w))
  | 0x1 => .ok (.orReg (xOf w) (yOf w))
  | 0x2 => .ok (.andReg (xOf w) (yOf w))
  | 0x3 => .ok (.xorReg (xOf w) (yOf w))
  | 0x4 => .ok (.addReg (xOf w) (yOf w))
  | 0x5 => .ok (.subReg (xOf w) (yOf w))
  | 0x6 => .ok (.shr (xOf w) (yOf w))
  | 0x7 => .ok (.subnReg (xOf w) (yOf w))
  | 0xE => .ok (.shl (xOf w) (yOf w))
  | _ => .error (.unknownWord w)

/-- Family E: decided by the whole low byte (R64). -/
def decodeE (w : Word) : Except Reject Instr :=
  if kkOf w = 0x9E#8 then .ok (.skp (xOf w))
  else if kkOf w = 0xA1#8 then .ok (.sknp (xOf w))
  else .error (.unknownWord w)

/-- Family F: decided by the whole low byte (R64). -/
def decodeF (w : Word) : Except Reject Instr :=
  if kkOf w = 0x07#8 then .ok (.ldVxDT (xOf w))
  else if kkOf w = 0x0A#8 then .ok (.ldVxK (xOf w))
  else if kkOf w = 0x15#8 then .ok (.ldDTVx (xOf w))
  else if kkOf w = 0x18#8 then .ok (.ldSTVx (xOf w))
  else if kkOf w = 0x1E#8 then .ok (.addI (xOf w))
  else if kkOf w = 0x29#8 then .ok (.ldF (xOf w))
  else if kkOf w = 0x33#8 then .ok (.ldB (xOf w))
  else if kkOf w = 0x55#8 then .ok (.storeRegs (xOf w))
  else if kkOf w = 0x65#8 then .ok (.loadRegs (xOf w))
  else .error (.unknownWord w)

/-- The decoder: an exact match of every fixed digit, the same in both modes (R63, R64, R68). -/
def decode (w : Word) : Except Reject Instr :=
  match (opOf w).toNat with
  | 0x0 => decode0 w
  | 0x1 => .ok (.jp (nnnOf w))
  | 0x2 => .ok (.call (nnnOf w))
  | 0x3 => .ok (.seImm (xOf w) (kkOf w))
  | 0x4 => .ok (.sneImm (xOf w) (kkOf w))
  | 0x5 => if nOf w = 0#4 then .ok (.seReg (xOf w) (yOf w)) else .error (.unknownWord w)
  | 0x6 => .ok (.ldImm (xOf w) (kkOf w))
  | 0x7 => .ok (.addImm (xOf w) (kkOf w))
  | 0x8 => decode8 w
  | 0x9 => if nOf w = 0#4 then .ok (.sneReg (xOf w) (yOf w)) else .error (.unknownWord w)
  | 0xA => .ok (.ldI (nnnOf w))
  | 0xB => .ok (.jpV0 (nnnOf w))
  | 0xC => .ok (.rnd (xOf w) (kkOf w))
  | 0xD => .ok (.drw (xOf w) (yOf w) (nOf w).toNat)
  | 0xE => decodeE w
  | _ => decodeF w

/-- The decoder on the two bytes of an instruction as memory holds them (R42, R60). -/
def decodeBytes (first second : Byte) : Except Reject Instr :=
  decode (wordOfBytes first second)

/-! ## The encoder: the digits of each pattern of R63, most significant first -/

/-- Format A: `op nnn` (R62). -/
def formatA (op : BitVec 4) (nnn : Addr12) : Word := op ++ nnn
/-- Format K: `op x kk` (R62). -/
def formatK (op : BitVec 4) (x : Reg) (kk : Byte) : Word := op ++ x ++ kk
/-- Formats R and D: `op x y n` (R62). -/
def formatR (op : BitVec 4) (x y : Reg) (n : BitVec 4) : Word := op ++ x ++ y ++ n

/-- The instruction word of an instruction (R63). -/
def encode : Instr → Word
  | .cls => 0x00E0#16
  | .ret => 0x00EE#16
  | .jp nnn => formatA 0x1#4 nnn
  | .call nnn => formatA 0x2#4 nnn
  | .seImm x kk => formatK 0x3#4 x kk
  | .sneImm x kk => formatK 0x4#4 x kk
  | .seReg x y => formatR 0x5#4 x y 0x0#4
  | .ldImm x kk => formatK 0x6#4 x kk
  | .addImm x kk => formatK 0x7#4 x kk
  | .ldReg x y => formatR 0x8#4 x y 0x0#4
  | .orReg x y => formatR 0x8#4 x y 0x1#4
  | .andReg x y => formatR 0x8#4 x y 0x2#4
  | .xorReg x y => formatR 0x8#4 x y 0x3#4
  | .addReg x y => formatR 0x8#4 x y 0x4#4
  | .subReg x y => formatR 0x8#4 x y 0x5#4
  | .shr x y => formatR 0x8#4 x y 0x6#4
  | .subnReg x y => formatR 0x8#4 x y 0x7#4
  | .shl x y => formatR 0x8#4 x y 0xE#4
  | .sneReg x y => formatR 0x9#4 x y 0x0#4
  | .ldI nnn => formatA 0xA#4 nnn
  | .jpV0 nnn => formatA 0xB#4 nnn
  | .rnd x kk => formatK 0xC#4 x kk
  | .drw x y n => formatR 0xD#4 x y (BitVec.ofNat 4 n)
  | .skp x => formatK 0xE#4 x 0x9E#8
  | .sknp x => formatK 0xE#4 x 0xA1#8
  | .ldVxDT x => formatK 0xF#4 x 0x07#8
  | .ldVxK x => formatK 0xF#4 x 0x0A#8
  | .ldDTVx x => formatK 0xF#4 x 0x15#8
  | .ldSTVx x => formatK 0xF#4 x 0x18#8
  | .addI x => formatK 0xF#4 x 0x1E#8
  | .ldF x => formatK 0xF#4 x 0x29#8
  | .ldB x => formatK 0xF#4 x 0x33#8
  | .storeRegs x => formatK 0xF#4 x 0x55#8
  | .loadRegs x => formatK 0xF#4 x 0x65#8

/-! ## The opcode table, mask and match as R63 prints them -/

/-- One row of R63: a word `w` is the instruction when `w &&& mask = pattern`. -/
structure OpcodeRow where
  mask : Word
  pattern : Word
  deriving DecidableEq, Repr

/-- Does the word satisfy the row? -/
def OpcodeRow.covers (r : OpcodeRow) (w : Word) : Bool := w &&& r.mask == r.pattern

/-- Rows 1 to 10 of R63. -/
def opcodeRows1 : List OpcodeRow :=
  [⟨0xFFFF, 0x00E0⟩, ⟨0xFFFF, 0x00EE⟩, ⟨0xF000, 0x1000⟩, ⟨0xF000, 0x2000⟩, ⟨0xF000, 0x3000⟩,
   ⟨0xF000, 0x4000⟩, ⟨0xF00F, 0x5000⟩, ⟨0xF000, 0x6000⟩, ⟨0xF000, 0x7000⟩, ⟨0xF00F, 0x8000⟩]

/-- Rows 11 to 22 of R63. -/
def opcodeRows2 : List OpcodeRow :=
  [⟨0xF00F, 0x8001⟩, ⟨0xF00F, 0x8002⟩, ⟨0xF00F, 0x8003⟩, ⟨0xF00F, 0x8004⟩, ⟨0xF00F, 0x8005⟩, ⟨0xF00F, 0x8006⟩,
   ⟨0xF00F, 0x8007⟩, ⟨0xF00F, 0x800E⟩, ⟨0xF00F, 0x9000⟩, ⟨0xF000, 0xA000⟩, ⟨0xF000, 0xB000⟩, ⟨0xF000, 0xC000⟩]

/-- Rows 23 to 34 of R63. -/
def opcodeRows3 : List OpcodeRow :=
  [⟨0xF000, 0xD000⟩, ⟨0xF0FF, 0xE09E⟩, ⟨0xF0FF, 0xE0A1⟩, ⟨0xF0FF, 0xF007⟩, ⟨0xF0FF, 0xF00A⟩, ⟨0xF0FF, 0xF015⟩,
   ⟨0xF0FF, 0xF018⟩, ⟨0xF0FF, 0xF01E⟩, ⟨0xF0FF, 0xF029⟩, ⟨0xF0FF, 0xF033⟩, ⟨0xF0FF, 0xF055⟩, ⟨0xF0FF, 0xF065⟩]

/-- The 34 rows of R63.  The decoder does not use this list: it is the second transcription of the table, against which
statements hold the decoder and the encoder. -/
def opcodeTable : List OpcodeRow := opcodeRows1 ++ opcodeRows2 ++ opcodeRows3

/-- The row of R63 that the instruction comes from. -/
def Instr.row : Instr → OpcodeRow
  | .cls => ⟨0xFFFF, 0x00E0⟩
  | .ret => ⟨0xFFFF, 0x00EE⟩
  | .jp _ => ⟨0xF000, 0x1000⟩
  | .call _ => ⟨0xF000, 0x2000⟩
  | .seImm _ _ => ⟨0xF000, 0x3000⟩
  | .sneImm _ _ => ⟨0xF000, 0x4000⟩
  | .seReg _ _ => ⟨0xF00F, 0x5000⟩
  | .ldImm _ _ => ⟨0xF000, 0x6000⟩
  | .addImm _ _ => ⟨0xF000, 0x7000⟩
  | .ldReg _ _ => ⟨0xF00F, 0x8000⟩
  | .orReg _ _ => ⟨0xF00F, 0x8001⟩
  | .andReg _ _ => ⟨0xF00F, 0x8002⟩
  | .xorReg _ _ => ⟨0xF00F, 0x8003⟩
  | .addReg _ _ => ⟨0xF00F, 0x8004⟩
  | .subReg _ _ => ⟨0xF00F, 0x8005⟩
  | .shr _ _ => ⟨0xF00F, 0x8006⟩
  | .subnReg _ _ => ⟨0xF00F, 0x8007⟩
  | .shl _ _ => ⟨0xF00F, 0x800E⟩
  | .sneReg _ _ => ⟨0xF00F, 0x9000⟩
  | .ldI _ => ⟨0xF000, 0xA000⟩
  | .jpV0 _ => ⟨0xF000, 0xB000⟩
  | .rnd _ _ => ⟨0xF000, 0xC000⟩
  | .drw _ _ _ => ⟨0xF000, 0xD000⟩
  | .skp _ => ⟨0xF0FF, 0xE09E⟩
  | .sknp _ => ⟨0xF0FF, 0xE0A1⟩
  | .ldVxDT _ => ⟨0xF0FF, 0xF007⟩
  | .ldVxK _ => ⟨0xF0FF, 0xF00A⟩
  | .ldDTVx _ => ⟨0xF0FF, 0xF015⟩
  | .ldSTVx _ => ⟨0xF0FF, 0xF018⟩
  | .addI _ => ⟨0xF0FF, 0xF01E⟩
  | .ldF _ => ⟨0xF0FF, 0xF029⟩
  | .ldB _ => ⟨0xF0FF, 0xF033⟩
  | .storeRegs _ => ⟨0xF0FF, 0xF055⟩
  | .loadRegs _ => ⟨0xF0FF, 0xF065⟩

/-! ## The host's numbering of a table row's bits -/

/-- The word the host means by `nbits` bits of value `w`: bit 0 the least significant, the bits above `nbits` zero. -/
def tableWord (nbits w : Nat) : Word := BitVec.ofNat 16 (w % 2 ^ nbits)

/-- The instruction the decoder reads from the two bytes of that word as memory holds them. -/
def decodeTableWord (nbits w : Nat) : Option Instr :=
  match decodeBytes (highByte (tableWord nbits w)) (lowByte (tableWord nbits w)) with
  | .ok i => some i
  | .error _ => none

end Sys2Proof
end

