-- ==== Sys2Proof/Config.lean ====
section
/-! DEFINITION. The parameters the spec says a model takes as arguments (R5, R30), and the one free value: the random byte
of Cxkk (R111).  Their defaults are in `Machine/Defaults.lean`. -/

namespace Sys2Proof

/-- FONT_BASE: 0x050, or 0x000, the only other supported value (R48, decision D1). -/
inductive FontBase where
  | at050
  | at000
  deriving DecidableEq, Repr

/-- SPRITE_EDGE: what Dxyn does with a pixel off the grid (R128, decision D6). -/
inductive SpriteEdge where
  /-- The pixel is dropped (the default). -/
  | clip
  /-- The column is taken modulo 64 and the row modulo 32. -/
  | wrap
  /-- The model refuses a sprite that overhangs. -/
  | fail
  deriving DecidableEq, Repr

/-- FONT: 16 glyphs of 5 bytes, the top row first (R47). -/
abbrev Font := Vector (Vector Byte 5) 16

/-- The parameters of the block, fixed from reset to reset (R5, R30, R175). -/
structure Params where
  /-- FONT_BASE (R48) -/
  fontBase : FontBase
  /-- FONT (R47) -/
  font : Font
  /-- SPRITE_EDGE (R128) -/
  edge : SpriteEdge
  /-- ON_COLOR, the colour an enabled pixel is exported in (R20) -/
  onColor : BitVec 32
  /-- OFF_COLOR, the colour a disabled pixel is exported in (R20) -/
  offColor : BitVec 32
  deriving DecidableEq, Repr

/-- FREE VALUE (log 7), safe for one run: the random byte of the execution of Cxkk that is numbered `k` from the first one.  It has
no body, so no proof knows a value of it and no law relates two of them (R26, R111, decision D12). -/
opaque Config.rnd : Nat → Byte

end Sys2Proof
end

