-- ==== Sys2Proof/Machine/Defaults.lean ====
section
/-! DEFINITION. The values of the parameters: where FONT_BASE lies (R48), the font table (R47), and the defaults of R5. -/

namespace Sys2Proof

/-- The address the font table is copied to at reset (R48). -/
def FontBase.addr : FontBase → Nat
  | .at050 => 0x050
  | .at000 => 0x000

/-- The glyphs 0 to 7 of R47. -/
def glyphs0to7 : Vector (Vector Byte 5) 8 :=
  #v[#v[0xF0, 0x90, 0x90, 0x90, 0xF0], #v[0x20, 0x60, 0x20, 0x20, 0x70],
     #v[0xF0, 0x10, 0xF0, 0x80, 0xF0], #v[0xF0, 0x10, 0xF0, 0x10, 0xF0],
     #v[0x90, 0x90, 0xF0, 0x10, 0x10], #v[0xF0, 0x80, 0xF0, 0x10, 0xF0],
     #v[0xF0, 0x80, 0xF0, 0x90, 0xF0], #v[0xF0, 0x10, 0x20, 0x40, 0x40]]

/-- The glyphs 8 to F of R47. -/
def glyphs8toF : Vector (Vector Byte 5) 8 :=
  #v[#v[0xF0, 0x90, 0xF0, 0x90, 0xF0], #v[0xF0, 0x90, 0xF0, 0x10, 0xF0],
     #v[0xF0, 0x90, 0xF0, 0x90, 0x90], #v[0xE0, 0x90, 0xE0, 0x90, 0xE0],
     #v[0xF0, 0x80, 0x80, 0x80, 0xF0], #v[0xE0, 0x90, 0x90, 0x90, 0xE0],
     #v[0xF0, 0x80, 0xF0, 0x80, 0xF0], #v[0xF0, 0x80, 0xF0, 0x80, 0x80]]

/-- The default of FONT: the table of R47, which the spec marks as general knowledge and not in its source.
PRESUMED (log 5), unsafe for a claim about the pixels of a glyph. -/
def conventionalFont : Font := glyphs0to7 ++ glyphs8toF

/-- The defaults of R5.  DESIGN CHOICE (log 3), unsafe: the two colours have no default in the spec. -/
def Params.standard : Params where
  fontBase := .at050
  font := conventionalFont
  edge := .clip
  onColor := 0xFFFFFFFF
  offColor := 0x00000000

/-- QUIRKY in `State.reset`.  DESIGN CHOICE (log 2), unsafe: the spec gives QUIRKY no default (R175). -/
def quirkyDefault : Bool := false

end Sys2Proof
end

