-- ==== Sys2Proof/Machine/State.lean ====
section
/-! DEFINITION. The machine's state (R10 to R30), the state after reset (R29), and the reasons a step can stop. -/

namespace Sys2Proof.Machine

/-- Why a step ends in a fault of the host's interface: never.  The five faults of R151 are not stops of the model: the
spec describes what entering one writes (R152) and what every later step does (R87), so they are next states, and the
record `faultCause`, `faultPc`, `faultInfo` says which one happened. -/
inductive Fault where
  deriving DecidableEq, Repr

/-- Why the model gives no next state. -/
inductive Refusal where
  /-- Raised by `exec` for an instruction that has no meaning yet.  Safe. -/
  | notModelled (mnemonic : String)
  /-- Raised by Dxyn when SPRITE_EDGE is `fail` and the sprite overhangs the grid: R128 calls it "a model refusal, not a
  hardware fault".  The default of SPRITE_EDGE never raises it.  Safe. -/
  | spriteOffGrid
  /-- Raised by `State.launch` for a ROM of more than 3584 bytes: R172, "a reset with `len > 3584` is refused".  Safe. -/
  | romTooLong
  /-- Raised by `State.launch` for ON_COLOR = OFF_COLOR: distinct colours are a premise of reset (R20, U10).  Safe. -/
  | coloursEqual
  deriving DecidableEq, Repr

/-- The cells of `mem` that differ from their content after a reset with the empty ROM, in rising order of address. -/
abbrev Memory := List Host.Cell

/-- All the state of the block (R10 to R25), its input levels, its parameters and the model's draw counter. -/
structure State where
  /-- V[0] to V[15] (R10) -/
  v : Vector Byte 16
  /-- the program counter (R13) -/
  pc : Word
  /-- the index register I (R14) -/
  i : Word
  /-- the stack pointer: the number of return addresses held (R17) -/
  sp : BitVec 5
  /-- stack[0] to stack[15] (R16) -/
  stack : Vector Word 16
  /-- the delay timer DT (R18) -/
  dt : Byte
  /-- the sound timer ST (R19) -/
  st : Byte
  /-- the memory array (R40), as the list of the cells that differ from their reset content -/
  mem : Memory
  /-- the framebuffer (R20) -/
  fb : Framebuffer
  /-- the draw flag (R21) -/
  draw : Bool
  /-- the audible signal (R22) -/
  beep : Bool
  /-- the last step executed an unknown word (R23) -/
  unknown : Bool
  /-- the last unknown word (R23) -/
  unknownWord : Word
  /-- 0, or the code of the fault that halted the block (R24, R151) -/
  faultCause : BitVec 3
  /-- the address of the faulting instruction (R24) -/
  faultPc : Word
  /-- the faulting instruction word, 0 for FETCH_RANGE (R24, R152) -/
  faultInfo : Word
  /-- quirky mode (R15) -/
  quirky : Bool
  /-- INPUT: the key levels the host presents (R25); only the host's key update writes it (log 1) -/
  keypad : Keypad
  /-- the parameters, fixed from reset to reset (R30; log 4) -/
  params : Params
  /-- the model's own: the number of random bytes drawn so far (log 7) -/
  draws : Nat
  deriving DecidableEq, Repr

/-- What one step, and one instruction, answers. -/
abbrev Answer := Host.Outcome State Fault Refusal

/-- The state after a reset with the empty ROM (R29, R173), QUIRKY = 0 and the default parameters.
DESIGN CHOICE, unsafe: `quirky` (log 2), `keypad` (log 1), the two colours (log 3) and `draws` (log 7) have no reset
value in the spec. -/
def State.reset : State where
  v := Vector.replicate 16 0
  pc := 0x200
  i := 0
  sp := 0
  stack := Vector.replicate 16 0
  dt := 0
  st := 0
  mem := []
  fb := Vector.replicate 32 0
  draw := false
  beep := false
  unknown := false
  unknownWord := 0
  faultCause := 0
  faultPc := 0
  faultInfo := 0
  quirky := quirkyDefault
  keypad := 0
  params := Params.standard
  draws := 0

end Sys2Proof.Machine
end

