-- ==== Sys2Proof/Machine/Ops.lean ====
section
/-! DEFINITION. The named operations over memory, registers and the stack, the phases of the step around the execute
phase (R80 to R88), and entering a fault (R152). -/

namespace Sys2Proof.Machine

/-! ## Memory (R40 to R51) -/

/-- Byte `k` of the font table, 0 to 79; nothing lies beyond it (R47, R48). -/
def fontByte (p : Params) (k : Nat) : Byte :=
  if h : k < 80 then (p.font[k / 5]'(by omega))[k % 5]'(by omega) else 0

/-- What an unlisted address reads as: the content after a reset with the empty ROM, which is the font copy at FONT_BASE
and 0 elsewhere (R29, R46, R48; log 12). -/
def initByte (p : Params) (a : Nat) : Byte :=
  if p.fontBase.addr ≤ a then fontByte p (a - p.fontBase.addr) else 0

/-- The canonical form of `mem`: addresses strictly rising from `lo`, all below 4096, and no entry equal to what its
address reads as when unlisted. -/
def Memory.wfFrom (p : Params) : Nat → Memory → Bool
  | _, [] => true
  | lo, (b, u) :: m => decide (lo ≤ b) && decide (b < 4096) && (u != initByte p b) && Memory.wfFrom p (b + 1) m

/-- The canonical form of `mem`. -/
def Memory.wf (p : Params) (m : Memory) : Bool := Memory.wfFrom p 0 m

/-- `mem[a]` (R40). -/
def Memory.read (p : Params) : Memory → Nat → Byte
  | [], a => initByte p a
  | (b, u) :: m, a => if a = b then u else Memory.read p m a

/-- Put the byte into the list, keeping the canonical form. -/
def Memory.put (p : Params) (a : Nat) (x : Byte) : Memory → Memory
  | [] => if x = initByte p a then [] else [(a, x)]
  | (b, u) :: m =>
    if a < b then (if x = initByte p a then (b, u) :: m else (a, x) :: (b, u) :: m)
    else if a = b then (if x = initByte p a then m else (a, x) :: m)
    else (b, u) :: Memory.put p a x m

/-- `mem[a] <- x`; there is no cell above 4095 (R50), and the fault pre-check lets no instruction write one (R88). -/
def Memory.write (p : Params) (m : Memory) (a : Nat) (x : Byte) : Memory :=
  if a < 4096 then Memory.put p a x m else m

/-- `MemRead(a, 1)` (R7). -/
def State.readByte (s : State) (a : Nat) : Byte := Memory.read s.params s.mem a

/-- `MemWrite(a, 1, x)` (R7). -/
def State.writeByte (s : State) (a : Nat) (x : Byte) : State :=
  { s with mem := Memory.write s.params s.mem a x }

/-! ## Registers (R10, R11) -/

/-- `VF` is `V[15]` (R7). -/
def regF : Reg := 0xF#4

/-- `V[x]`. -/
def State.reg (s : State) (x : Reg) : Byte := s.v[x.toNat]

/-- `V[x] <- b`; no register is hardwired (R10). -/
def State.setReg (s : State) (x : Reg) (b : Byte) : State := { s with v := s.v.set x.toNat b }

/-- `I <- w` (R14). -/
def State.setI (s : State) (w : Word) : State := { s with i := w }

/-- `pc <- w` (R13). -/
def State.setPc (s : State) (w : Word) : State := { s with pc := w }

/-- Skip: `pc <- (pc + 2) mod 65536` in the execute phase, when the condition holds (R98). -/
def State.skipIf (s : State) (c : Bool) : State := { s with pc := if c then s.pc + 2 else s.pc }

/-! ## The call stack (R16, R17) -/

/-- `stack[k]`.  There is no entry above 15; no state that a run reaches asks for one (log 13). -/
def State.stackAt (s : State) (k : Nat) : Word := s.stack[k]?.getD 0

/-- `stack[sp] <- w ; sp <- sp + 1` (R92). -/
def State.push (s : State) (w : Word) : State :=
  { s with stack := s.stack.setIfInBounds s.sp.toNat w, sp := s.sp + 1 }

/-- `sp <- sp - 1 ; pc <- stack[sp]`; the entry read is not cleared (R16, R90). -/
def State.pop (s : State) : State :=
  { s with sp := s.sp - 1, pc := s.stackAt (s.sp - 1).toNat }

/-! ## Faults (R151, R152) -/

/-- The five faults of R151. -/
inductive FaultCause where
  /-- the fetch of any step, `pc0 > 4094` -/
  | fetchRange
  /-- Dxyn, Fx33, Fx55, Fx65: the largest address is above 4095 -/
  | dataRange
  /-- 2nnn with 16 return addresses held -/
  | stackOverflow
  /-- 00EE with none -/
  | stackUnderflow
  /-- Ex9E, ExA1 with a key number above 15 -/
  | keyRange
  deriving DecidableEq, Repr

/-- The code that `fault_cause` holds (R151); 6 and 7 are never produced. -/
def FaultCause.code : FaultCause → BitVec 3
  | .fetchRange => 1
  | .dataRange => 2
  | .stackOverflow => 3
  | .stackUnderflow => 4
  | .keyRange => 5

/-- The block is halted (R24). -/
def State.halted (s : State) : Bool := s.faultCause != 0

/-- `raise Fault(cause, info)`: what the faulting step writes, and nothing else (R152).  The program counter still holds
`pc0`, since every fault is raised before the advance (R88). -/
def State.raise (s : State) (cause : FaultCause) (info : Word) : State :=
  { s with faultCause := cause.code, faultPc := s.pc, faultInfo := info, draw := false, beep := false, unknown := false }

/-! ## The phases of the step (R80) -/

/-- Phase 0 of a halted block: the per-step outputs only (R87). -/
def State.idle (s : State) : State := { s with draw := false, beep := false, unknown := false }

/-- Phase 1: the instruction word at `pc`, big-endian, or nothing when a cell of it does not exist (R42, R81). -/
def State.fetch (s : State) : Option Word :=
  if s.pc.toNat ≤ 4094 then some (wordOfBytes (s.readByte s.pc.toNat) (s.readByte (s.pc.toNat + 1))) else none

/-- Phase 3: advance and clear (R82, R84). -/
def State.advance (s : State) : State := { s with pc := s.pc + 2, draw := false, unknown := false }

/-- Phases 3 and 4 of an unknown word: the frame alone, and the report (R65, R85). -/
def State.runUnknown (s : State) (w : Word) : State := { s.advance with unknown := true, unknownWord := w }

/-- One timer's decrement: a timer that is zero stays zero (R86). -/
def countDown (t : Byte) : Byte := if t = 0 then 0 else t - 1

/-- Phase 5: the audible signal, then the timers (R86). -/
def State.tick (s : State) : State :=
  { s with beep := s.st == 1, dt := countDown s.dt, st := countDown s.st }

/-- What the step does with what the instruction answered: phase 5, unless the instruction raised a fault (R86, R152). -/
def endStep : Answer → Answer
  | .next t => .next (if t.halted then t else t.tick)
  | .fault r => .fault r
  | .refused r => .refused r

end Sys2Proof.Machine
end

