-- ==== Sys2Proof/Machine/Flags.lean ====
section
/-! DEFINITION. Every flag the instructions compute (R32, R112).  A flag is written to VF as 0x00 or 0x01. -/

namespace Sys2Proof.Machine

/-- The value VF takes for a one-bit outcome (R32). -/
def flagByte (b : Bool) : Byte := if b then 1 else 0

/-- Addition: 1 when the exact sum is above 255 (R106, R112). -/
def carryOut (a b : Byte) : Bool := decide (a.toNat + b.toNat > 255)

/-- Subtraction: 1 when the minuend is strictly greater, so 0 when the two are equal (R107, R109, R112, conflict C6). -/
def noBorrow (minuend subtrahend : Byte) : Bool := decide (minuend.toNat > subtrahend.toNat)

/-- Shift right: the bit shifted out, `s mod 2` (R108, R112). -/
def shiftedOutRight (a : Byte) : Bool := decide (a.toNat % 2 = 1)

/-- Shift left: the bit shifted out, `s >= 128` (R110, R112). -/
def shiftedOutLeft (a : Byte) : Bool := decide (a.toNat ≥ 128)

/-- The four results of R112, reduced modulo 256 by their width. -/
def addByte (a b : Byte) : Byte := a + b
/-- `(minuend - subtrahend) mod 256` (R112) -/
def subByte (minuend subtrahend : Byte) : Byte := minuend - subtrahend
/-- `a div 2` (R112) -/
def shiftRight (a : Byte) : Byte := a >>> 1
/-- `(a * 2) mod 256` (R112) -/
def shiftLeft (a : Byte) : Byte := a <<< 1

/-- Write VF as a flag (R11). -/
def State.setFlag (s : State) (b : Bool) : State := s.setReg regF (flagByte b)

end Sys2Proof.Machine
end

