-- ==== Sys2Proof/Machine/Operands.lean ====
section
/-! DEFINITION. The operand forms: data addresses (R121), the operands that quirky mode selects (R108, R110, R119, R120),
the glyph address (R117), the decimal digits (R118) and the key levels (R138). -/

namespace Sys2Proof.Machine

/-- The effective address of the datum numbered `k`: `I + k` on natural numbers, never wrapped (R121). -/
def State.dataAddr (s : State) (k : Nat) : Nat := s.i.toNat + k

/-- Every one of `count` cells from `I` exists (R51). -/
def State.cellsExist (s : State) (count : Nat) : Bool := count == 0 || decide (s.i.toNat + count - 1 ≤ 4095)

/-- `zext_16(nnn)` (R67). -/
def zext16 {n : Nat} (a : BitVec n) : Word := a.setWidth 16

/-- The source of 8xy6 and 8xyE: `vy if quirky else vx` (R108, R110). -/
def State.shiftSource (s : State) (x y : Reg) : Byte := if s.quirky then s.reg y else s.reg x

/-- `I` after Fx55 and Fx65: advanced by `x + 1` in quirky mode only (R119, R120). -/
def State.bulkIndex (s : State) (x : Reg) : Word := if s.quirky then s.i + zext16 x + 1 else s.i

/-- `(FONT_BASE + 5 * vx) mod 65536`, the whole byte with no mask (R117). -/
def State.glyphAddr (s : State) (vx : Byte) : Word := BitVec.ofNat 16 (s.params.fontBase.addr + 5 * vx.toNat)

/-- The hundreds digit (R118). -/
def hundreds (a : Byte) : Byte := BitVec.ofNat 8 (a.toNat / 100)
/-- The tens digit (R118). -/
def tens (a : Byte) : Byte := BitVec.ofNat 8 (a.toNat / 10 % 10)
/-- The ones digit (R118). -/
def ones (a : Byte) : Byte := BitVec.ofNat 8 (a.toNat % 10)

/-- The level of key `k`, `k <= 15` (R138). -/
def State.keyDown (s : State) (k : Nat) : Bool := s.keypad.getLsbD k

/-- The least of the first `n` keys that is down, if one is. -/
def lowestBelow (k : Keypad) : Nat → Option Nat
  | 0 => none
  | n + 1 => match lowestBelow k n with
    | some j => some j
    | none => if k.getLsbD n then some n else none

/-- The least key that is down: the scan of Fx0A (R137, conflict C5). -/
def State.lowestKey (s : State) : Option Nat := lowestBelow s.keypad 16

end Sys2Proof.Machine
end

