-- ==== Sys2Proof/Machine/Alu.lean ====
section
/-! DEFINITION. Register load and arithmetic: 6xkk, 7xkk, 8xy0 to 8xy7, 8xyE, Cxkk (R100 to R113).  The operands are
sampled from the state as the step found it (R83), and the writes come in the order of the row (R113). -/

namespace Sys2Proof.Machine

/-- `6xkk` LD Vx, kk (R100). -/
def execLdImm (x : Reg) (kk : Byte) (s : State) : Answer := .next (s.advance.setReg x kk)

/-- `7xkk` ADD Vx, kk (R101): no flag. -/
def execAddImm (x : Reg) (kk : Byte) (s : State) : Answer := .next (s.advance.setReg x (addByte (s.reg x) kk))

/-- `8xy0` LD Vx, Vy (R102). -/
def execLdReg (x y : Reg) (s : State) : Answer := .next (s.advance.setReg x (s.reg y))

/-- `8xy1` OR Vx, Vy (R103): VF is not reset. -/
def execOrReg (x y : Reg) (s : State) : Answer := .next (s.advance.setReg x (s.reg x ||| s.reg y))

/-- `8xy2` AND Vx, Vy (R104): VF is not reset. -/
def execAndReg (x y : Reg) (s : State) : Answer := .next (s.advance.setReg x (s.reg x &&& s.reg y))

/-- `8xy3` XOR Vx, Vy (R105): VF is not reset. -/
def execXorReg (x y : Reg) (s : State) : Answer := .next (s.advance.setReg x (s.reg x ^^^ s.reg y))

/-- `8xy4` ADD Vx, Vy (R106): the sum, then the carry. -/
def execAddReg (x y : Reg) (s : State) : Answer :=
  .next ((s.advance.setReg x (addByte (s.reg x) (s.reg y))).setFlag (carryOut (s.reg x) (s.reg y)))

/-- `8xy5` SUB Vx, Vy (R107): the flag, then the difference. -/
def execSubReg (x y : Reg) (s : State) : Answer :=
  .next ((s.advance.setFlag (noBorrow (s.reg x) (s.reg y))).setReg x (subByte (s.reg x) (s.reg y)))

/-- `8xy7` SUBN Vx, Vy (R109): the flag, then the difference. -/
def execSubnReg (x y : Reg) (s : State) : Answer :=
  .next ((s.advance.setFlag (noBorrow (s.reg y) (s.reg x))).setReg x (subByte (s.reg y) (s.reg x)))

/-- `8xy6` SHR Vx, Vy (R108): the flag, then the shifted value. -/
def execShr (x y : Reg) (s : State) : Answer :=
  .next ((s.advance.setFlag (shiftedOutRight (s.shiftSource x y))).setReg x (shiftRight (s.shiftSource x y)))

/-- `8xyE` SHL Vx, Vy (R110): the flag, then the shifted value. -/
def execShl (x y : Reg) (s : State) : Answer :=
  .next ((s.advance.setFlag (shiftedOutLeft (s.shiftSource x y))).setReg x (shiftLeft (s.shiftSource x y)))

/-- `Cxkk` RND Vx, kk (R111): a fresh free byte for every execution (log 7). -/
def execRnd (x : Reg) (kk : Byte) (s : State) : Answer :=
  .next { s.advance.setReg x (Config.rnd s.draws &&& kk) with draws := s.draws + 1 }

end Sys2Proof.Machine
end

