-- ==== Sys2Proof/Machine/Display.lean ====
section
/-! DEFINITION. Display: 00E0, Dxyn (R125 to R128). -/

namespace Sys2Proof.Machine

/-- The framebuffer cell `k`, which is the pixel in column `k mod 64`, row `k div 64` (R57); there are 2048. -/
def cellOn (fb : Framebuffer) (k : Nat) : Bool := (fb[k / 64]?.getD 0).getLsbD (k % 64)

/-- Flip the framebuffer cell `k`. -/
def flipCell (fb : Framebuffer) (k : Nat) : Framebuffer :=
  fb.setIfInBounds (k / 64) (fb[k / 64]?.getD 0 ^^^ BitVec.twoPow 64 (k % 64))

/-- The pixel in column `c`, row `r` (R20, R57). -/
def State.pixel (s : State) (c r : Nat) : Bool := cellOn s.fb (r * 64 + c)

/-- `00E0` CLS (R125). -/
def execCls (s : State) : Answer := .next { s.advance with fb := Vector.replicate 32 0, draw := true }

/-- The framebuffer cell that a sprite pixel at column `c`, row `r` falls on, or none when it is dropped (R128).  Under
`fail` no pixel of a sprite that is not refused is off the grid. -/
def pixelCell (e : SpriteEdge) (c r : Nat) : Option Nat :=
  match e with
  | .clip | .fail => if c ≤ 63 ∧ r ≤ 31 then some (r * 64 + c) else none
  | .wrap => some (r % 32 * 64 + c % 64)

/-- The framebuffer and the collision flag while a sprite is drawn (R126). -/
structure Raster where
  fb : Framebuffer
  hit : Bool
  deriving DecidableEq, Repr

/-- Toggle one cell; a cell that was enabled is a collision (R126). -/
def Raster.toggle (g : Raster) (cell : Nat) : Raster :=
  { fb := flipCell g.fb cell, hit := g.hit || cellOn g.fb cell }

/-- One sprite pixel: a 0 bit leaves its pixel alone (R126). -/
def Raster.plot (g : Raster) (e : SpriteEdge) (bit : Bool) (c r : Nat) : Raster :=
  if bit then
    match pixelCell e c r with
    | some cell => g.toggle cell
    | none => g
  else g

/-- The first `k` columns of one sprite row; column 0 is bit 7 of the byte (R126). -/
def Raster.plotCols (g : Raster) (e : SpriteEdge) (b : Byte) (x0 r : Nat) : Nat → Raster
  | 0 => g
  | k + 1 => (g.plotCols e b x0 r k).plot e (b.getLsbD (7 - k)) (x0 + k) r

/-- The first `k` rows of the sprite, whose bytes are read from `mem[I + row]` (R126). -/
def State.plotRows (s : State) (x0 y0 : Nat) : Nat → Raster
  | 0 => { fb := s.fb, hit := false }
  | k + 1 => (s.plotRows x0 y0 k).plotCols s.params.edge (s.readByte (s.dataAddr k)) x0 (y0 + k) 8

/-- The sprite's origin column, `vx mod 64` (R126). -/
def State.originX (s : State) (x : Reg) : Nat := (s.reg x).toNat % 64

/-- The sprite's origin row, `vy mod 32` (R126). -/
def State.originY (s : State) (y : Reg) : Nat := (s.reg y).toNat % 32

/-- A sprite that the value `fail` of SPRITE_EDGE refuses, whatever its bits are (R128). -/
def State.overhangs (s : State) (x y : Reg) (n : Nat) : Bool :=
  decide (n > 0) && (decide (s.originX x > 56) || decide (s.originY y + n > 32))

/-- `Dxyn` DRW Vx, Vy, n (R126 to R128). -/
def execDrw (x y : Reg) (n : Nat) (s : State) : Answer :=
  if s.params.edge = .fail ∧ s.overhangs x y n = true then .refused .spriteOffGrid
  else if s.cellsExist n then
    .next ({ s.advance with
      fb := (s.plotRows (s.originX x) (s.originY y) n).fb
      draw := true }.setFlag (s.plotRows (s.originX x) (s.originY y) n).hit)
  else .next (s.raise .dataRange (encode (.drw x y n)))

end Sys2Proof.Machine
end

