-- ==== Sys2Proof/Machine/Flow.lean ====
section
/-! DEFINITION. Control transfer: 00EE, 1nnn, 2nnn, 3xkk, 4xkk, 5xy0, 9xy0, Bnnn (R90 to R98).  Each meaning is phases
2b, 3 and 4 of the step (R80) from the state as the step found it. -/

namespace Sys2Proof.Machine

/-- `00EE` RET (R90). -/
def execRet (s : State) : Answer :=
  if s.sp = 0 then .next (s.raise .stackUnderflow (encode .ret))
  else .next s.advance.pop

/-- `1nnn` JP nnn (R91). -/
def execJp (nnn : Addr12) (s : State) : Answer := .next (s.advance.setPc (zext16 nnn))

/-- `2nnn` CALL nnn (R92): the write is at the old `sp`, of the already advanced `pc`. -/
def execCall (nnn : Addr12) (s : State) : Answer :=
  if s.sp = 16 then .next (s.raise .stackOverflow (encode (.call nnn)))
  else .next ((s.advance.push s.advance.pc).setPc (zext16 nnn))

/-- `3xkk` SE Vx, kk (R93). -/
def execSeImm (x : Reg) (kk : Byte) (s : State) : Answer := .next (s.advance.skipIf (s.reg x == kk))

/-- `4xkk` SNE Vx, kk (R94). -/
def execSneImm (x : Reg) (kk : Byte) (s : State) : Answer := .next (s.advance.skipIf (s.reg x != kk))

/-- `5xy0` SE Vx, Vy (R95). -/
def execSeReg (x y : Reg) (s : State) : Answer := .next (s.advance.skipIf (s.reg x == s.reg y))

/-- `9xy0` SNE Vx, Vy (R96). -/
def execSneReg (x y : Reg) (s : State) : Answer := .next (s.advance.skipIf (s.reg x != s.reg y))

/-- `Bnnn` JP V0, nnn (R97): always V[0], a 16-bit sum with no mask. -/
def execJpV0 (nnn : Addr12) (s : State) : Answer :=
  .next (s.advance.setPc (zext16 (s.reg 0#4) + zext16 nnn))

end Sys2Proof.Machine
end

