-- ==== Sys2Proof/Machine/IndexMem.lean ====
section
/-! DEFINITION. Index register and memory: Annn, Fx1E, Fx29, Fx33, Fx55, Fx65 (R115 to R121). -/

namespace Sys2Proof.Machine

/-- `Annn` LD I, nnn (R115). -/
def execLdI (nnn : Addr12) (s : State) : Answer := .next (s.advance.setI (zext16 nnn))

/-- `Fx1E` ADD I, Vx (R116): wraps modulo 65536, no flag. -/
def execAddI (x : Reg) (s : State) : Answer := .next (s.advance.setI (s.i + zext16 (s.reg x)))

/-- `Fx29` LD F, Vx (R117). -/
def execLdF (x : Reg) (s : State) : Answer := .next (s.advance.setI (s.glyphAddr (s.reg x)))

/-- The three stores of Fx33 (R118). -/
def State.storeDigits (s : State) (a : Byte) : State :=
  ((s.writeByte (s.dataAddr 0) (hundreds a)).writeByte (s.dataAddr 1) (tens a)).writeByte (s.dataAddr 2) (ones a)

/-- `Fx33` LD B, Vx (R118). -/
def execLdB (x : Reg) (s : State) : Answer :=
  if s.cellsExist 3 then .next (s.advance.storeDigits (s.reg x))
  else .next (s.raise .dataRange (encode (.ldB x)))

/-- `mem[I + k] <- V[k]` for `k` from 0 to `count - 1` (R119). -/
def State.storeFirst (s : State) : Nat → State
  | 0 => s
  | k + 1 => (s.storeFirst k).writeByte (s.dataAddr k) (s.reg (BitVec.ofNat 4 k))

/-- `Fx55` LD [I], Vx (R119). -/
def execStoreRegs (x : Reg) (s : State) : Answer :=
  if s.cellsExist (x.toNat + 1) then .next ((s.advance.storeFirst (x.toNat + 1)).setI (s.bulkIndex x))
  else .next (s.raise .dataRange (encode (.storeRegs x)))

/-- `V[k] <- mem[I + k]` for `k` from 0 to `count - 1` (R120). -/
def State.loadFirst (s : State) : Nat → State
  | 0 => s
  | k + 1 => (s.loadFirst k).setReg (BitVec.ofNat 4 k) (s.readByte (s.dataAddr k))

/-- `Fx65` LD Vx, [I] (R120). -/
def execLoadRegs (x : Reg) (s : State) : Answer :=
  if s.cellsExist (x.toNat + 1) then .next ((s.advance.loadFirst (x.toNat + 1)).setI (s.bulkIndex x))
  else .next (s.raise .dataRange (encode (.loadRegs x)))

end Sys2Proof.Machine
end

