-- ==== Sys2Proof/Machine/Keys.lean ====
section
/-! DEFINITION. Keypad: Ex9E, ExA1, Fx0A (R135 to R138). -/

namespace Sys2Proof.Machine

/-- `Ex9E` SKP Vx (R135). -/
def execSkp (x : Reg) (s : State) : Answer :=
  if (s.reg x).toNat > 15 then .next (s.raise .keyRange (encode (.skp x)))
  else .next (s.advance.skipIf (s.keyDown (s.reg x).toNat))

/-- `ExA1` SKNP Vx (R136). -/
def execSknp (x : Reg) (s : State) : Answer :=
  if (s.reg x).toNat > 15 then .next (s.raise .keyRange (encode (.sknp x)))
  else .next (s.advance.skipIf (!s.keyDown (s.reg x).toNat))

/-- What Fx0A does with the scan's answer, in the execute phase: load the key's number, or go back to `pc0` (R137). -/
def State.takeKey (s : State) (x : Reg) : Option Nat → State
  | some k => s.setReg x (BitVec.ofNat 8 k)
  | none => s.setPc (s.pc - 2)

/-- `Fx0A` LD Vx, K (R137): the lowest key that is down, else back to `pc0`. -/
def execLdVxK (x : Reg) (s : State) : Answer := .next (s.advance.takeKey x s.lowestKey)

end Sys2Proof.Machine
end

