-- ==== Sys2Proof/Machine/Timers.lean ====
section
/-! DEFINITION. Timer access: Fx07, Fx15, Fx18 (R140 to R142).  The decrement is phase 5 of the step, `State.tick`. -/

namespace Sys2Proof.Machine

/-- `Fx07` LD Vx, DT (R140). -/
def execLdVxDT (x : Reg) (s : State) : Answer := .next (s.advance.setReg x s.dt)

/-- `Fx15` LD DT, Vx (R141). -/
def execLdDTVx (x : Reg) (s : State) : Answer := .next { s.advance with dt := s.reg x }

/-- `Fx18` LD ST, Vx (R142). -/
def execLdSTVx (x : Reg) (s : State) : Answer := .next { s.advance with st := s.reg x }

end Sys2Proof.Machine
end

