-- ==== Sys2Proof/Machine/Step.lean ====
section
/-! DEFINITION. The step (R80), and how the host places an instruction where the next step fetches. -/

namespace Sys2Proof.Machine

/-- One step: halted (R87), or fetch (R81), decode (R85), the instruction (`exec`) or the unknown word, and the timers. -/
def step (s : State) : Host.Outcome State Fault Refusal :=
  if s.halted then .next s.idle
  else match s.fetch with
    | none => .next (s.raise .fetchRange 0)
    | some w => match decode w with
      | .ok i => endStep (exec i s)
      | .error (.unknownWord u) => endStep (.next (s.runUnknown u))

/-- The instruction word of `nbits` bits of value `w`, stored big-endian at `pc` (R42).  The step fetches at `pc` and
needs nothing else (R81). -/
def State.withFetchWord (s : State) (nbits w : Nat) : State :=
  (s.writeByte s.pc.toNat (highByte (tableWord nbits w))).writeByte (s.pc.toNat + 1) (lowByte (tableWord nbits w))

end Sys2Proof.Machine
end

