-- ==== Sys2Proof/Machine/Port.lean ====
section
/-! DEFINITION. The host's side of the boundary (R31, R170 to R176): reset, the key update, the step request, and what the
host reads. -/

namespace Sys2Proof.Machine

/-- `MemWrite(a + i, 1, rom[i])` for every byte of the ROM, in order (R170). -/
def loadRom (p : Params) : List Byte → Nat → Memory → Memory
  | [], _, m => m
  | b :: rom, a, m => loadRom p rom (a + 1) (Memory.write p m a b)

/-- `reset(rom, QUIRKY)` with the block's parameters (R170 to R175).  The state before the reset gives only what is not
the block's state: the key levels the host presents (R25), and the count of random bytes drawn, so that no draw is ever
repeated (R111; log 7).  A ROM that does not fit and two equal colours are refused (R172, U10; log 15). -/
def State.launch (s : State) (p : Params) (rom : List Byte) (quirky : Bool) : Answer :=
  if rom.length > 3584 then .refused .romTooLong
  else if p.onColor = p.offColor then .refused .coloursEqual
  else .next { State.reset with
    mem := loadRom p rom 0x200 []
    quirky := quirky
    keypad := s.keypad
    params := p
    draws := s.draws }

/-- The moves of the host that change something: the rows launch, key update and step of R176.  It has no other. -/
inductive Move where
  /-- request `reset` with a ROM image and QUIRKY -/
  | launch (p : Params) (rom : List Byte) (quirky : Bool)
  /-- present 16 key levels -/
  | keys (levels : Keypad)
  /-- request `step` -/
  | step
  deriving DecidableEq, Repr

/-- What one move does; a key update touches `keypad` only (R176). -/
def State.move (s : State) : Move → Answer
  | .launch p rom quirky => s.launch p rom quirky
  | .keys levels => .next { s with keypad := levels }
  | .step => Sys2Proof.Machine.step s

/-- A run: the host's moves one after another, each acting between steps (R53, R176). -/
def State.runMoves (s : State) : List Move → Answer
  | [] => .next s
  | m :: ms => match s.move m with
    | .next t => t.runMoves ms
    | .fault r => .fault r
    | .refused r => .refused r

/-- What the host reads when it presents the framebuffer: cell `k` as one of the two colours (R20, R57). -/
def State.colorAt (s : State) (k : Nat) : BitVec 32 :=
  if cellOn s.fb k then s.params.onColor else s.params.offColor

end Sys2Proof.Machine
end

