-- ==== Sys2Proof/Safety.lean ====
section
/-! DEFINITION. The terms claims are written in: what a step leaves unchanged, the tables of R12 and R88, the invariant of
every reachable state, runs, and the resting state (R183).  A run is good while the block is not halted (R153). -/

namespace Sys2Proof.Machine

/-! ## What changed -/

/-- The pieces of state (R10 to R30), the three registers of the fault record taken together. -/
inductive Part where
  | regs | pc | index | sp | stack | dt | st | mem | fb | draw | beep | unknown | unknownWord | fault | quirky
  | keypad | params | draws
  deriving DecidableEq, Repr

/-- The piece reads the same in both states: every register, every stack entry, every byte of memory, every pixel. -/
def Part.Same (s t : State) : Part → Prop
  | .regs => ∀ r, t.reg r = s.reg r
  | .pc => t.pc = s.pc
  | .index => t.i = s.i
  | .sp => t.sp = s.sp
  | .stack => ∀ k, t.stackAt k = s.stackAt k
  | .dt => t.dt = s.dt
  | .st => t.st = s.st
  | .mem => ∀ a, t.readByte a = s.readByte a
  | .fb => ∀ c r, t.pixel c r = s.pixel c r
  | .draw => t.draw = s.draw
  | .beep => t.beep = s.beep
  | .unknown => t.unknown = s.unknown
  | .unknownWord => t.unknownWord = s.unknownWord
  | .fault => t.faultCause = s.faultCause ∧ t.faultPc = s.faultPc ∧ t.faultInfo = s.faultInfo
  | .quirky => t.quirky = s.quirky
  | .keypad => t.keypad = s.keypad
  | .params => t.params = s.params
  | .draws => t.draws = s.draws

/-- Everything but the named pieces is unchanged. -/
def SameBut (changed : List Part) (s t : State) : Prop := ∀ p, p ∉ changed → p.Same s t

/-- The frame's own effect on an instruction that neither draws nor moves `pc` itself (R82, R84). -/
def Advanced (s t : State) : Prop :=
  t.pc.toNat = (s.pc.toNat + 2) % 65536 ∧ t.draw = false ∧ t.unknown = false

/-- The instruction wrote the named registers, the frame advanced, and nothing else happened. -/
def OnlyRegs (written : List Reg) (s t : State) : Prop :=
  (∀ r, r ∉ written → t.reg r = s.reg r) ∧ Advanced s t ∧ SameBut [.regs, .pc, .draw, .unknown] s t

/-- The instruction moved `pc`, the frame cleared its outputs, and nothing else happened. -/
def OnlyPc (s t : State) : Prop := t.draw = false ∧ t.unknown = false ∧ SameBut [.pc, .draw, .unknown] s t

/-- The fault record of a step that raised a fault at the instruction that stands at `s.pc`, with nothing else changed
(R152). -/
def Faulted (code : Nat) (info : Word) (s t : State) : Prop :=
  t.faultCause.toNat = code ∧ t.faultPc = s.pc ∧ t.faultInfo = info ∧
    t.draw = false ∧ t.beep = false ∧ t.unknown = false ∧ SameBut [.fault, .draw, .beep, .unknown] s t

/-! ## The tables of R12, R88 and of who writes what -/

/-- The column "writes" of R12. -/
def writesReg (s : State) (r : Reg) : Instr → Prop
  | .ldImm x _ | .rnd x _ | .addImm x _ | .ldReg x _ | .orReg x _ | .andReg x _ | .xorReg x _ | .ldVxDT x => r = x
  | .addReg x _ | .subReg x _ | .subnReg x _ | .shr x _ | .shl x _ => r = x ∨ r = regF
  | .drw _ _ _ => r = regF
  | .ldVxK x => r = x ∧ ∃ k < 16, s.keypad.getLsbD k = true
  | .loadRegs x => r.toNat ≤ x.toNat
  | .cls | .ret | .jp _ | .call _ | .seImm _ _ | .sneImm _ _ | .seReg _ _ | .sneReg _ _ | .ldI _ | .jpV0 _ | .skp _
  | .sknp _ | .ldDTVx _ | .ldSTVx _ | .addI _ | .ldF _ | .ldB _ | .storeRegs _ => False

/-- The column "reads" of R12. -/
def readsReg (s : State) (r : Reg) : Instr → Prop
  | .seImm x _ | .sneImm x _ | .addImm x _ | .skp x | .sknp x | .ldDTVx x | .ldSTVx x | .addI x | .ldF x | .ldB x => r = x
  | .seReg x y | .sneReg x y | .orReg x y | .andReg x y | .xorReg x y | .addReg x y | .subReg x y | .subnReg x y
  | .drw x y _ => r = x ∨ r = y
  | .ldReg _ y => r = y
  | .shr x y | .shl x y => if s.quirky then r = y else r = x
  | .jpV0 _ => r = 0#4
  | .storeRegs x => r.toNat ≤ x.toNat
  | .cls | .ret | .jp _ | .call _ | .ldImm _ _ | .ldI _ | .rnd _ _ | .ldVxDT _ | .ldVxK _ | .loadRegs _ => False

/-- The code of the fault whose execute-time condition holds, from the table of R88 with the codes of R151. -/
def faultCondition (s : State) : Instr → Option Nat
  | .ret => if s.sp = 0 then some 4 else none
  | .call _ => if s.sp = 16 then some 3 else none
  | .drw _ _ n => if n > 0 ∧ s.i.toNat + n - 1 > 4095 then some 2 else none
  | .ldB _ => if s.i.toNat + 2 > 4095 then some 2 else none
  | .storeRegs x | .loadRegs x => if s.i.toNat + x.toNat > 4095 then some 2 else none
  | .skp x | .sknp x => if (s.reg x).toNat > 15 then some 5 else none
  | .cls | .jp _ | .seImm _ _ | .sneImm _ _ | .seReg _ _ | .ldImm _ _ | .addImm _ _ | .ldReg _ _ | .orReg _ _
  | .andReg _ _ | .xorReg _ _ | .addReg _ _ | .subReg _ _ | .shr _ _ | .subnReg _ _ | .shl _ _ | .sneReg _ _
  | .ldI _ | .jpV0 _ | .rnd _ _ | .ldVxDT _ | .ldVxK _ | .ldDTVx _ | .ldSTVx _ | .addI _ | .ldF _ => none

/-- Which instructions can change a piece of state at all: I (R14), the stack (R16, R17), the timers (R18, R19), the
framebuffer (R57), memory (R56), the fault record and `beep` by a fault only (R88, R152), the draw counter (R111).
`quirky`, `keypad`, the parameters and `unknown_word` are changed by no instruction (R15, R23, R25, R30). -/
def mayChange (s : State) (i : Instr) : Part → Prop
  | .regs => ∃ r, writesReg s r i
  | .pc | .draw | .unknown => True
  | .index => (∃ a, i = .ldI a) ∨ (∃ x, i = .addI x) ∨ (∃ x, i = .ldF x) ∨
      (s.quirky = true ∧ ((∃ x, i = .storeRegs x) ∨ ∃ x, i = .loadRegs x))
  | .sp => i = .ret ∨ ∃ a, i = .call a
  | .stack => ∃ a, i = .call a
  | .dt => ∃ x, i = .ldDTVx x
  | .st => ∃ x, i = .ldSTVx x
  | .mem => (∃ x, i = .ldB x) ∨ ∃ x, i = .storeRegs x
  | .fb => i = .cls ∨ ∃ x y n, i = .drw x y n
  | .beep | .fault => faultCondition s i ≠ none
  | .draws => ∃ x kk, i = .rnd x kk
  | .unknownWord | .quirky | .keypad | .params => False

/-! ## Sprites -/

/-- The sprite pixel of column `col`, row `row` lands on the grid at column `c`, row `r` (R126, R128). -/
def Lands (e : SpriteEdge) (x0 y0 row col c r : Nat) : Prop :=
  match e with
  | .wrap => (x0 + col) % 64 = c ∧ (y0 + row) % 32 = r
  | .clip | .fail => x0 + col = c ∧ y0 + row = r

/-- A set bit of the sprite that Dxyn draws lands on the pixel in column `c`, row `r` (R126, R130). -/
def Lit (s : State) (x y : Reg) (n c r : Nat) : Prop :=
  ∃ row < n, ∃ col < 8, (s.readByte (s.dataAddr row)).getLsbD (7 - col) = true ∧
    Lands s.params.edge ((s.reg x).toNat % 64) ((s.reg y).toNat % 32) row col c r

/-- The sprite is one that the value `fail` of SPRITE_EDGE refuses (R128). -/
def RefusedSprite (s : State) (x y : Reg) (n : Nat) : Prop :=
  s.params.edge = .fail ∧ n > 0 ∧ ((s.reg x).toNat % 64 > 56 ∨ (s.reg y).toNat % 32 + n > 32)

/-! ## The invariant -/

/-- What holds in every state the block can be in (R13, R16, R17, R24, R98, R151 to R153, and the premise of R20). -/
structure Inv (s : State) : Prop where
  /-- memory is in its canonical form -/
  memory : Memory.wf s.params s.mem = true
  /-- "a stack pointer (0–16)" (R17) -/
  sp : s.sp.toNat ≤ 16
  /-- a return address is at most 4096 (R98) -/
  returns : ∀ k, (s.stackAt k).toNat ≤ 4096
  /-- `pc <= 0x10FE` always (R98) -/
  pc : s.pc.toNat ≤ 0x10FE
  /-- the codes 6 and 7 are never produced (R151) -/
  cause : s.faultCause.toNat ≤ 5
  /-- a halted block stays at the faulting instruction and shows no output (R87, R152) -/
  halted : s.halted = true → s.faultPc = s.pc ∧ s.draw = false ∧ s.beep = false ∧ s.unknown = false
  /-- the fault record is written by the first fault only (R24) -/
  running : s.halted = false → s.faultPc = 0 ∧ s.faultInfo = 0
  /-- one step runs one instruction: it is never both a draw and an unknown word (R21, R23) -/
  outputs : ¬ (s.draw = true ∧ s.unknown = true)
  /-- the two colours differ (R20) -/
  colours : s.params.onColor ≠ s.params.offColor

/-! ## Runs -/

/-- `n` steps in a row, none from or into a halted block, none executing an instruction of the kind `avoided`. -/
inductive StepsAvoiding (avoided : Instr → Prop) : Nat → State → State → Prop where
  | none (s : State) : StepsAvoiding avoided 0 s s
  | more {n : Nat} {s t u : State} (before : StepsAvoiding avoided n s t) (runs : t.halted = false)
      (avoids : ∀ w i, t.fetch = some w → decode w = .ok i → ¬ avoided i)
      (one : step t = .next u) (good : u.halted = false) : StepsAvoiding avoided (n + 1) s u

/-- The step from `s` executes the instruction `i`: the block runs, and the word at `pc` decodes to it. -/
def Executes (s : State) (i : Instr) : Prop :=
  s.halted = false ∧ ∃ w, s.fetch = some w ∧ decode w = .ok i

/-- The move is a key update or a step. -/
def Move.isKeysOrStep : Move → Bool
  | .launch _ _ _ => false
  | .keys _ => true
  | .step => true

/-- The resting state: the instruction at `pc` is a jump to itself (R183). -/
def Resting (s : State) : Prop :=
  s.halted = false ∧ s.pc.toNat ≤ 4094 ∧
    (s.readByte s.pc.toNat).toNat * 256 + (s.readByte (s.pc.toNat + 1)).toNat = 0x1000 + s.pc.toNat

end Sys2Proof.Machine
end

