-- ==== Sys2Proof/Certificates/Slice0/Obligations.lean ====
section
/-! DEFINITION. The statements for the provers, in the order of `OBLIGATIONS.json`. -/

open Sys2Proof Sys2Proof.Machine

/-! ## Encoding and decoding (R60 to R65) -/

/-- R63, R64, R67: decoding the word of a well-formed instruction gives it back, with every operand. -/
def Obligations.DecodeOfEncode : Prop :=
  ∀ i : Instr, WellFormed i → decode (encode i) = .ok i

/-- R63, R64: what decodes is well formed, and the word is the one word that encodes it, so no bit of a word is dropped.
That the word is the only one rests on the exact match of every fixed digit, which is the spec's reading of its source,
decision D10 (log 10). -/
def Obligations.EncodeOfDecode : Prop :=
  ∀ (w : Word) (i : Instr), decode w = .ok i → WellFormed i ∧ encode i = w

/-- R64: the decoder against the mask and match columns of the opcode table: a word decodes exactly when some row of the
table covers it, to an instruction of that row, and is an unknown word otherwise (R65).  The exact match is the spec's
reading of its source, decision D10 (log 10). -/
def Obligations.DecodeMatchesTable : Prop :=
  ∀ w : Word,
    (∀ i, decode w = .ok i → i.row ∈ opcodeTable ∧ i.row.covers w = true) ∧
    (∀ r ∈ opcodeTable, r.covers w = true → ∃ i, decode w = .ok i ∧ i.row = r) ∧
    ((∀ r ∈ opcodeTable, r.covers w = false) → decode w = .error (.unknownWord w))

/-- R63: "The 34 patterns are pairwise disjoint, so at most one row matches any word." -/
def Obligations.TableRowsDisjoint : Prop :=
  opcodeTable.length = 34 ∧
    ∀ w : Word, ∀ r ∈ opcodeTable, ∀ r' ∈ opcodeTable, r.covers w = true → r'.covers w = true → r = r'

/-- Words written out from the examples of the rules, one or more per family, and three unknown words (R65).  That the
last two are unknown is decision D10 (log 10). -/
def Obligations.ExampleWordsDecode : Prop :=
  decode 0x00E0 = .ok .cls ∧ decode 0x00EE = .ok .ret ∧ decode 0x2300 = .ok (.call 0x300) ∧
  decode 0x332A = .ok (.seImm 3 0x2A) ∧ decode 0x8124 = .ok (.addReg 1 2) ∧ decode 0xC30F = .ok (.rnd 3 0x0F) ∧
  decode 0xA300 = .ok (.ldI 0x300) ∧ decode 0xF255 = .ok (.storeRegs 2) ∧ decode 0xD015 = .ok (.drw 0 1 5) ∧
  decode 0xE29E = .ok (.skp 2) ∧ decode 0xF30A = .ok (.ldVxK 3) ∧ decode 0xF207 = .ok (.ldVxDT 2) ∧
  decode 0x0000 = .error (.unknownWord 0x0000) ∧ decode 0x5121 = .error (.unknownWord 0x5121) ∧
  decode 0xE19F = .error (.unknownWord 0xE19F)

/-! ## The step (R80 to R89) -/

/-- R42: the fetch is big-endian: the byte at the lower address is the high byte, the other holds `y`, `n` and `kk`.
That nothing is fetched when a cell lies above 4095 is R50 and R81, decision D4 (log 9). -/
def Obligations.FetchIsBigEndian : Prop :=
  ∀ s : State,
    (s.pc.toNat ≤ 4094 → ∃ w, s.fetch = some w ∧
      w.toNat = (s.readByte s.pc.toNat).toNat * 256 + (s.readByte (s.pc.toNat + 1)).toNat ∧
      w.extractLsb' 8 8 = s.readByte s.pc.toNat ∧ kkOf w = s.readByte (s.pc.toNat + 1) ∧
      (opOf w).toNat = (s.readByte s.pc.toNat).toNat / 16 ∧ (xOf w).toNat = (s.readByte s.pc.toNat).toNat % 16 ∧
      (yOf w).toNat = (s.readByte (s.pc.toNat + 1)).toNat / 16 ∧
      (nOf w).toNat = (s.readByte (s.pc.toNat + 1)).toNat % 16) ∧
    (s.pc.toNat > 4094 → s.fetch = none)

/-- R80, R85: when the bytes at `pc` decode to an instruction, the step is `exec` of it, then phase 5 unless it faulted.
That a step whose instruction faulted leaves phase 5 out is R88 and R152, decision D3 (log 9), and the refusal is that
of SPRITE_EDGE's value `fail`, R128, decision D6 (log 6). -/
def Obligations.StepRunsDecoded : Prop :=
  ∀ (s : State) (i : Instr), s.halted = false → s.pc.toNat ≤ 4094 →
    decodeBytes (s.readByte s.pc.toNat) (s.readByte (s.pc.toNat + 1)) = .ok i →
    (∀ t, exec i s = .next t → step s = .next (if t.halted then t else t.tick)) ∧
    (∀ r, exec i s = .refused r → step s = .refused r)

/-- R81, R151, R152: a step whose fetch would touch a cell above 4095 raises FETCH_RANGE and does nothing else.  The
fault and its record are the spec's decisions D3 and D4 (log 9). -/
def Obligations.FetchOutOfRangeFaults : Prop :=
  ∀ s : State, s.halted = false → s.pc.toNat > 4094 → ∃ t, step s = .next t ∧ Faulted 1 0 s t

/-- R85, R65: a word that no row of the table covers executes as the frame alone and is reported.  That every such word
runs so is decision D10, and the report's form is D11 (log 10). -/
def Obligations.UnknownWordIsReportedNoOp : Prop :=
  ∀ (s : State) (w : Word), s.halted = false → s.fetch = some w → (∀ r ∈ opcodeTable, r.covers w = false) →
    ∃ t, step s = .next t ∧ t.pc.toNat = (s.pc.toNat + 2) % 65536 ∧ t.draw = false ∧ t.unknown = true ∧
      t.unknownWord = w ∧ t.beep = decide (s.st.toNat = 1) ∧ t.dt.toNat = s.dt.toNat - 1 ∧ t.st.toNat = s.st.toNat - 1 ∧
      t.halted = false ∧ SameBut [.pc, .draw, .unknown, .unknownWord, .beep, .dt, .st] s t

/-- R86: whatever phases 3 and 4 ran (an instruction, or an unknown word) and left as `u`, phase 5 comes after it: `beep`
is 1 exactly when ST is 1, and each timer counts down by one and stops at zero; nothing else changes in phase 5. -/
def Obligations.TimersCountEveryStep : Prop :=
  ∀ (s u : State) (w : Word), s.halted = false → s.fetch = some w →
    (∀ i, decode w = .ok i → exec i s = .next u) → (∀ e, decode w = .error e → u = s.runUnknown w) → u.halted = false →
    ∃ t, step s = .next t ∧ (t.beep = true ↔ u.st.toNat = 1) ∧ t.dt.toNat = u.dt.toNat - 1 ∧
      t.st.toNat = u.st.toNat - 1 ∧ SameBut [.beep, .dt, .st] u t

/-- R87: a halted step only drives the per-step outputs to 0.  The halt is the spec's decision D3 (log 9). -/
def Obligations.HaltedStepClearsOutputs : Prop :=
  ∀ s : State, s.halted = true →
    ∃ t, step s = .next t ∧ t.draw = false ∧ t.beep = false ∧ t.unknown = false ∧
      SameBut [.draw, .beep, .unknown] s t

/-- R153, R154: no sequence of steps and key updates leaves the halted state or touches anything but the outputs and the
key levels; only reset does.  The halt is the spec's decision D3 (log 9). -/
def Obligations.HaltedUntilReset : Prop :=
  ∀ (s : State) (ms : List Move), s.halted = true → ms.all Move.isKeysOrStep = true →
    ∃ t, s.runMoves ms = .next t ∧ t.halted = true ∧ SameBut [.draw, .beep, .unknown, .keypad] s t

/-- R88, R151, R152: when the instruction's own fault condition holds, `exec` records that fault with the instruction
word and writes nothing else; when none holds, it records none. A sprite that the model refuses (R128, log 6) is no
instruction to check.  The faults are the spec's decisions D3, D4, D5 and D8 (log 9). -/
def Obligations.FaultPreCheck : Prop :=
  ∀ (i : Instr) (s : State), (∀ x y n, i = .drw x y n → ¬ RefusedSprite s x y n) →
    (∀ c, faultCondition s i = some c → ∃ t, exec i s = .next t ∧ Faulted c (encode i) s t) ∧
    (faultCondition s i = none → ∃ t, exec i s = .next t ∧ Part.Same s t .fault)

/-- R152, R88: a step whose instruction raises a fault is precise: the record holds the code, the instruction's address
and its word, `pc` stays, the timers do not move, and nothing else changes.  The faults are the spec's decisions D3, D4,
D5 and D8 (log 9). -/
def Obligations.FaultingStepIsPrecise : Prop :=
  ∀ (s : State) (w : Word) (i : Instr) (c : Nat), (∀ x y n, i = .drw x y n → ¬ RefusedSprite s x y n) →
    s.halted = false → s.fetch = some w → decode w = .ok i → faultCondition s i = some c →
    ∃ t, step s = .next t ∧ Faulted c w s t ∧ t.halted = true

/-- R89: "A step always ends": with SPRITE_EDGE other than `fail`, every instruction and every step answers a next
state, whatever the state.  Under `fail` the model refuses some sprites (R128, decision D6, log 6). -/
def Obligations.EveryStepAnswers : Prop :=
  ∀ s : State, s.params.edge ≠ .fail → (∀ i, ∃ t, exec i s = .next t) ∧ ∃ t, step s = .next t

/-- R84: after a step `draw` is 1 exactly when the step executed 00E0 or Dxyn.  That a faulting Dxyn and a halted step
leave `draw` 0 is R87, R88 and R152, decision D3 (log 9). -/
def Obligations.DrawFlagTellsTheStep : Prop :=
  ∀ s t : State, step s = .next t →
    (t.draw = true ↔ t.halted = false ∧ (Executes s .cls ∨ ∃ x y n, Executes s (.drw x y n)))

/-! ## The whole machine -/

/-- The invariant: every step from a state that meets it ends in a state that meets it.  Its clauses about the fault
record and the halt are the spec's decision D3 (log 9), its bound on `sp` D5 and D16 (log 9, 13). -/
def Obligations.StepKeepsInv : Prop :=
  ∀ s t : State, Inv s → step s = .next t → Inv t

/-- The state after reset meets the invariant.  Several fields of it hold the model's own choices (log 1, 2, 3 and 7).
-/
def Obligations.ResetMeetsInv : Prop := Inv State.reset

/-- R176: whatever the host does from a launch on (more launches, key updates, steps), every state it reaches meets the
invariant. What a launch keeps of the state before it is the model's choice (log 15).  The clauses of the invariant
about the fault record and the halt are the spec's decision D3 (log 9). -/
def Obligations.HostRunsKeepInv : Prop :=
  ∀ (s t u : State) (p : Params) (rom : List Byte) (quirky : Bool) (ms : List Move),
    s.launch p rom quirky = .next t → t.runMoves ms = .next u → Inv u

/-- R12, column "writes": no instruction changes a register that the table does not let it write. -/
def Obligations.RegistersWritten : Prop :=
  ∀ (i : Instr) (s t : State), exec i s = .next t → ∀ r, ¬ writesReg s r i → t.reg r = s.reg r

/-- R12, column "reads": two states that differ only in registers the table does not let the instruction read give the
same result: the same written registers and the same everything else (in a fault no register is written).  Cxkk is
compared for one and the same draw (R89, log 7). -/
def Obligations.RegistersRead : Prop :=
  ∀ (i : Instr) (s t : State) (v : Vector Byte 16),
    (∀ r, readsReg s r i → ({ s with v := v } : State).reg r = s.reg r) → exec i s = .next t →
    ∃ t', exec i { s with v := v } = .next t' ∧ SameBut [.regs] t t' ∧
      (faultCondition s i = none → ∀ r, writesReg s r i → t'.reg r = t.reg r) ∧
      (∀ r, faultCondition s i ≠ none ∨ ¬ writesReg s r i → t'.reg r = ({ s with v := v } : State).reg r)

/-- R14 to R19, R24, R25, R30, R56, R57: no instruction changes a piece of state that the rules do not let it write.
The parameters, the key levels and the draw counter are the model's fields (log 1, 4, 7). -/
def Obligations.OnlyTheNamedWriters : Prop :=
  ∀ (i : Instr) (s t : State) (p : Part), exec i s = .next t → ¬ mayChange s i p → p.Same s t

/-- R15, R25, R30, R175: no step changes `quirky`, the key levels or a parameter; and none changes memory unless it
executes Fx33 or Fx55 (R56).  That the parameters and the key levels are fields of State is the model's choice (log 1,
4). -/
def Obligations.StepsKeepConfiguration : Prop :=
  ∀ s t : State, step s = .next t →
    t.quirky = s.quirky ∧ t.keypad = s.keypad ∧ t.params = s.params ∧
    ((∀ x, ¬ Executes s (.ldB x)) → (∀ x, ¬ Executes s (.storeRegs x)) → ∀ a, t.readByte a = s.readByte a)

/-- R45: a read returns the last value written to the cell, and a write leaves every other cell alone. -/
def Obligations.ReadAfterWrite : Prop :=
  ∀ (s : State) (a : Nat) (b : Byte), Memory.wf s.params s.mem = true → a < 4096 →
    (s.writeByte a b).readByte a = b ∧ (∀ k, k ≠ a → (s.writeByte a b).readByte k = s.readByte k) ∧
      SameBut [.mem] s (s.writeByte a b)

/-- The instruction that the host places with `withFetchWord` is the one the next step fetches.  It is about the model's
own operation (log 15). -/
def Obligations.PlacedWordIsFetched : Prop :=
  ∀ (s : State) (nbits w : Nat), Memory.wf s.params s.mem = true → s.pc.toNat ≤ 4094 →
    (s.withFetchWord nbits w).fetch = some (BitVec.ofNat 16 (w % 2 ^ nbits)) ∧
      SameBut [.mem] s (s.withFetchWord nbits w)

/-! ## Reset and the host (R29, R170 to R173) -/

/-- R29, R170, R171: what reset leaves, for every ROM that fits, every QUIRKY and every value of the parameters.  The
framebuffer and the outputs are the spec's decisions D13 and D14 (log 8), the fault record D3 (log 9), and that the key
levels stay is the model's choice (log 1, 15). -/
def Obligations.LaunchState : Prop :=
  ∀ (s : State) (p : Params) (rom : List Byte) (quirky : Bool), rom.length ≤ 3584 → p.onColor ≠ p.offColor →
    ∃ t, s.launch p rom quirky = .next t ∧ (∀ r, t.reg r = 0) ∧ t.pc = 0x200 ∧ t.i = 0 ∧ t.sp = 0 ∧
      (∀ k, t.stackAt k = 0) ∧ t.dt = 0 ∧ t.st = 0 ∧ t.quirky = quirky ∧ (∀ c r, t.pixel c r = false) ∧
      t.draw = false ∧ t.beep = false ∧ t.unknown = false ∧ t.unknownWord = 0 ∧
      t.faultCause = 0 ∧ t.faultPc = 0 ∧ t.faultInfo = 0 ∧ t.params = p ∧ t.keypad = s.keypad ∧
      (∀ a < 4096, t.readByte a =
        if p.fontBase.addr ≤ a ∧ a < p.fontBase.addr + 80 then fontByte p (a - p.fontBase.addr)
        else if 0x200 ≤ a ∧ a < 0x200 + rom.length then rom.getD (a - 0x200) 0 else 0)

/-- R172: a reset with a ROM of more than 3584 bytes is refused, and no state results.  The refusal is the spec's
decision D7 (log 15). -/
def Obligations.LongRomIsRefused : Prop :=
  ∀ (s : State) (p : Params) (rom : List Byte) (quirky : Bool), rom.length > 3584 →
    s.launch p rom quirky = .refused .romTooLong

/-- R173: with the empty ROM the machine executes the unknown word 0x0000 1792 times, and the step after that faults
with FETCH_RANGE at 0x1000; the keys are left alone.  The fault at the end is the spec's decision D4 (log 9). -/
def Obligations.EmptyRomRun : Prop :=
  ∀ (s t : State) (p : Params) (quirky : Bool) (n : Nat), s.launch p [] quirky = .next t →
    (0 < n → n ≤ 1792 → ∃ u, t.runMoves (List.replicate n .step) = .next u ∧ u.halted = false ∧
      u.pc.toNat = 0x200 + 2 * n ∧ u.unknown = true ∧ u.unknownWord = 0 ∧ SameBut [.pc, .unknown] t u) ∧
    (n > 1792 → ∃ u, t.runMoves (List.replicate n .step) = .next u ∧ u.faultCause = 1 ∧ u.faultPc = 0x1000 ∧
      u.faultInfo = 0 ∧ u.pc = 0x1000 ∧ u.unknown = false ∧ SameBut [.pc, .fault] t u)

/-! ## Control transfer (R90 to R98) -/

/-- R90.  The fault is the spec's decision D5 (log 9). -/
def Obligations.ReturnPops : Prop :=
  ∀ s : State,
    (encode .ret).toNat = 0x00EE ∧
    (s.sp.toNat = 0 → ∃ t, exec .ret s = .next t ∧ Faulted 4 (encode .ret) s t) ∧
    (s.sp.toNat ≠ 0 → ∃ t, exec .ret s = .next t ∧ t.sp.toNat = s.sp.toNat - 1 ∧
      t.pc = s.stackAt (s.sp.toNat - 1) ∧ t.draw = false ∧ t.unknown = false ∧
      SameBut [.sp, .pc, .draw, .unknown] s t)

/-- R91. -/
def Obligations.JumpSetsPc : Prop :=
  ∀ (nnn : Addr12) (s : State), (encode (.jp nnn)).toNat = 0x1000 + nnn.toNat ∧
    ∃ t, exec (.jp nnn) s = .next t ∧ t.pc.toNat = nnn.toNat ∧ OnlyPc s t

/-- R92: the write is at the old `sp`, of the address after the CALL. `sp` is at most 16 in every reachable state (R17).
The fault is the spec's decision D5 (log 9). -/
def Obligations.CallPushes : Prop :=
  ∀ (nnn : Addr12) (s : State), (encode (.call nnn)).toNat = 0x2000 + nnn.toNat ∧
    (s.sp.toNat = 16 → ∃ t, exec (.call nnn) s = .next t ∧ Faulted 3 (encode (.call nnn)) s t) ∧
    (s.sp.toNat < 16 → ∃ t, exec (.call nnn) s = .next t ∧ t.sp.toNat = s.sp.toNat + 1 ∧ t.pc.toNat = nnn.toNat ∧
      (t.stackAt s.sp.toNat).toNat = (s.pc.toNat + 2) % 65536 ∧
      (∀ k, k ≠ s.sp.toNat → t.stackAt k = s.stackAt k) ∧ t.draw = false ∧ t.unknown = false ∧
      SameBut [.sp, .stack, .pc, .draw, .unknown] s t)

/-- R90 with R92: a RET after a CALL, from wherever the subroutine ends, restores `pc` to the instruction after the CALL
and `sp` to what it was, and keeps every live entry below. -/
def Obligations.CallThenReturn : Prop :=
  ∀ (nnn : Addr12) (s : State) (ending : Word), s.sp.toNat < 16 →
    ∃ t u, exec (.call nnn) s = .next t ∧ exec .ret { t with pc := ending } = .next u ∧
      u.pc.toNat = (s.pc.toNat + 2) % 65536 ∧ u.sp = s.sp ∧ (∀ k < s.sp.toNat, u.stackAt k = s.stackAt k) ∧
      SameBut [.pc, .stack, .draw, .unknown] s u

/-- R93, R94: skip by comparison with the immediate, exactly one of the two. -/
def Obligations.SkipOnImmediate : Prop :=
  ∀ (x : Reg) (kk : Byte) (s : State),
    (encode (.seImm x kk)).toNat = 0x3000 + 256 * x.toNat + kk.toNat ∧
    (encode (.sneImm x kk)).toNat = 0x4000 + 256 * x.toNat + kk.toNat ∧
    (∃ t, exec (.seImm x kk) s = .next t ∧ OnlyPc s t ∧
      t.pc.toNat = (s.pc.toNat + if (s.reg x).toNat = kk.toNat then 4 else 2) % 65536) ∧
    (∃ t, exec (.sneImm x kk) s = .next t ∧ OnlyPc s t ∧
      t.pc.toNat = (s.pc.toNat + if (s.reg x).toNat = kk.toNat then 2 else 4) % 65536)

/-- R95, R96: skip by comparison of two registers. -/
def Obligations.SkipOnRegisters : Prop :=
  ∀ (x y : Reg) (s : State),
    (encode (.seReg x y)).toNat = 0x5000 + 256 * x.toNat + 16 * y.toNat ∧
    (encode (.sneReg x y)).toNat = 0x9000 + 256 * x.toNat + 16 * y.toNat ∧
    (∃ t, exec (.seReg x y) s = .next t ∧ OnlyPc s t ∧
      t.pc.toNat = (s.pc.toNat + if (s.reg x).toNat = (s.reg y).toNat then 4 else 2) % 65536) ∧
    (∃ t, exec (.sneReg x y) s = .next t ∧ OnlyPc s t ∧
      t.pc.toNat = (s.pc.toNat + if (s.reg x).toNat = (s.reg y).toNat then 2 else 4) % 65536)

/-- R97: always V[0], and the sum is not reduced modulo 4096. -/
def Obligations.JumpWithOffset : Prop :=
  ∀ (nnn : Addr12) (s : State), (encode (.jpV0 nnn)).toNat = 0xB000 + nnn.toNat ∧
    ∃ t, exec (.jpV0 nnn) s = .next t ∧ t.pc.toNat = (s.reg 0).toNat + nnn.toNat ∧ OnlyPc s t

/-! ## Load and arithmetic (R100 to R113) -/

/-- R100, R102. -/
def Obligations.LoadsCopy : Prop :=
  ∀ (x y : Reg) (kk : Byte) (s : State),
    (encode (.ldImm x kk)).toNat = 0x6000 + 256 * x.toNat + kk.toNat ∧
    (encode (.ldReg x y)).toNat = 0x8000 + 256 * x.toNat + 16 * y.toNat ∧
    (∃ t, exec (.ldImm x kk) s = .next t ∧ t.reg x = kk ∧ OnlyRegs [x] s t) ∧
    (∃ t, exec (.ldReg x y) s = .next t ∧ t.reg x = s.reg y ∧ OnlyRegs [x] s t)

/-- R101: wraps modulo 256 and writes no flag. -/
def Obligations.AddImmediateWraps : Prop :=
  ∀ (x : Reg) (kk : Byte) (s : State),
    (encode (.addImm x kk)).toNat = 0x7000 + 256 * x.toNat + kk.toNat ∧
    ∃ t, exec (.addImm x kk) s = .next t ∧ (t.reg x).toNat = ((s.reg x).toNat + kk.toNat) % 256 ∧ OnlyRegs [x] s t

/-- R103, R104, R105: bit by bit, and VF is not reset. -/
def Obligations.LogicIsBitwise : Prop :=
  ∀ (x y : Reg) (s : State),
    (encode (.orReg x y)).toNat = 0x8001 + 256 * x.toNat + 16 * y.toNat ∧
    (encode (.andReg x y)).toNat = 0x8002 + 256 * x.toNat + 16 * y.toNat ∧
    (encode (.xorReg x y)).toNat = 0x8003 + 256 * x.toNat + 16 * y.toNat ∧
    (∃ t, exec (.orReg x y) s = .next t ∧ OnlyRegs [x] s t ∧
      ∀ k, (t.reg x).getLsbD k = ((s.reg x).getLsbD k || (s.reg y).getLsbD k)) ∧
    (∃ t, exec (.andReg x y) s = .next t ∧ OnlyRegs [x] s t ∧
      ∀ k, (t.reg x).getLsbD k = ((s.reg x).getLsbD k && (s.reg y).getLsbD k)) ∧
    (∃ t, exec (.xorReg x y) s = .next t ∧ OnlyRegs [x] s t ∧
      ∀ k, (t.reg x).getLsbD k = ((s.reg x).getLsbD k != (s.reg y).getLsbD k))

/-- R106 (with R113 for `x = 15`): VF is the carry in every form, the sum remains unless `x` is VF.  What VF holds for
`x = 15` is decision D9 (log 11). -/
def Obligations.AddWithCarry : Prop :=
  ∀ (x y : Reg) (s : State),
    (encode (.addReg x y)).toNat = 0x8004 + 256 * x.toNat + 16 * y.toNat ∧
    ∃ t, exec (.addReg x y) s = .next t ∧ OnlyRegs [x, regF] s t ∧
      (t.reg regF).toNat = (if (s.reg x).toNat + (s.reg y).toNat > 255 then 1 else 0) ∧
      (x ≠ regF → (t.reg x).toNat = ((s.reg x).toNat + (s.reg y).toNat) % 256)

/-- R107 (with R113 for `x = 15`): the difference always, the strict flag unless `x` is VF.  What VF holds for `x = 15`
is decision D9 (log 11). -/
def Obligations.SubtractWithFlag : Prop :=
  ∀ (x y : Reg) (s : State),
    (encode (.subReg x y)).toNat = 0x8005 + 256 * x.toNat + 16 * y.toNat ∧
    ∃ t, exec (.subReg x y) s = .next t ∧ OnlyRegs [x, regF] s t ∧
      (t.reg x).toNat = ((s.reg x).toNat + 256 - (s.reg y).toNat) % 256 ∧
      (x ≠ regF → (t.reg regF).toNat = if (s.reg x).toNat > (s.reg y).toNat then 1 else 0)

/-- R109 (with R113 for `x = 15`).  What VF holds for `x = 15` is decision D9 (log 11). -/
def Obligations.ReverseSubtractWithFlag : Prop :=
  ∀ (x y : Reg) (s : State),
    (encode (.subnReg x y)).toNat = 0x8007 + 256 * x.toNat + 16 * y.toNat ∧
    ∃ t, exec (.subnReg x y) s = .next t ∧ OnlyRegs [x, regF] s t ∧
      (t.reg x).toNat = ((s.reg y).toNat + 256 - (s.reg x).toNat) % 256 ∧
      (x ≠ regF → (t.reg regF).toNat = if (s.reg y).toNat > (s.reg x).toNat then 1 else 0)

/-- R108 (with R113 for `x = 15`): quirky mode shifts Vy into Vx.  What VF holds for `x = 15` is decision D9 (log 11).
-/
def Obligations.ShiftRight : Prop :=
  ∀ (x y : Reg) (s : State),
    (encode (.shr x y)).toNat = 0x8006 + 256 * x.toNat + 16 * y.toNat ∧
    ∃ t, exec (.shr x y) s = .next t ∧ OnlyRegs [x, regF] s t ∧
      (s.quirky = false → (t.reg x).toNat = (s.reg x).toNat / 2 ∧
        (x ≠ regF → (t.reg regF).toNat = (s.reg x).toNat % 2)) ∧
      (s.quirky = true → (t.reg x).toNat = (s.reg y).toNat / 2 ∧
        (x ≠ regF → (t.reg regF).toNat = (s.reg y).toNat % 2))

/-- R110 (with R113 for `x = 15`): the flag is 0 or 1, never 0x80.  What VF holds for `x = 15` is decision D9 (log 11),
and the flag's value is the spec's inference. -/
def Obligations.ShiftLeft : Prop :=
  ∀ (x y : Reg) (s : State),
    (encode (.shl x y)).toNat = 0x800E + 256 * x.toNat + 16 * y.toNat ∧
    ∃ t, exec (.shl x y) s = .next t ∧ OnlyRegs [x, regF] s t ∧
      (s.quirky = false → (t.reg x).toNat = (s.reg x).toNat * 2 % 256 ∧
        (x ≠ regF → (t.reg regF).toNat = (s.reg x).toNat / 128)) ∧
      (s.quirky = true → (t.reg x).toNat = (s.reg y).toNat * 2 % 256 ∧
        (x ≠ regF → (t.reg regF).toNat = (s.reg y).toNat / 128))

/-- R111: the free byte of this draw, masked; every bit that is 0 in `kk` is 0, the result is at most `kk`, and the next
draw is another one.  The byte is a free value (decision D12, log 7): the statement holds for every value of it. -/
def Obligations.RandomIsMasked : Prop :=
  ∀ (x : Reg) (kk : Byte) (s : State),
    (encode (.rnd x kk)).toNat = 0xC000 + 256 * x.toNat + kk.toNat ∧
    ∃ t, exec (.rnd x kk) s = .next t ∧
      (∀ k, (t.reg x).getLsbD k = ((Config.rnd s.draws).getLsbD k && kk.getLsbD k)) ∧
      (t.reg x).toNat ≤ kk.toNat ∧ t.draws = s.draws + 1 ∧ (∀ r, r ≠ x → t.reg r = s.reg r) ∧ Advanced s t ∧
      SameBut [.regs, .pc, .draw, .unknown, .draws] s t

/-! ## Index and memory (R115 to R121) -/

/-- R115, R116, R117: the three ways to set I; no flag, no reduction modulo 4096, no mask on the digit.  No mask on
Fx29's digit is the spec's literal reading of its source. -/
def Obligations.IndexIsSet : Prop :=
  ∀ (nnn : Addr12) (x : Reg) (s : State),
    (encode (.ldI nnn)).toNat = 0xA000 + nnn.toNat ∧ (encode (.addI x)).toNat = 0xF01E + 256 * x.toNat ∧
    (encode (.ldF x)).toNat = 0xF029 + 256 * x.toNat ∧
    (∃ t, exec (.ldI nnn) s = .next t ∧ t.i.toNat = nnn.toNat ∧ Advanced s t ∧
      SameBut [.index, .pc, .draw, .unknown] s t) ∧
    (∃ t, exec (.addI x) s = .next t ∧ t.i.toNat = (s.i.toNat + (s.reg x).toNat) % 65536 ∧ Advanced s t ∧
      SameBut [.index, .pc, .draw, .unknown] s t) ∧
    (∃ t, exec (.ldF x) s = .next t ∧ t.i.toNat = (s.params.fontBase.addr + 5 * (s.reg x).toNat) % 65536 ∧
      Advanced s t ∧ SameBut [.index, .pc, .draw, .unknown] s t)

/-- R118: the three decimal digits at I, I + 1, I + 2, and no other cell; or DATA_RANGE and no cell at all.  The fault
is the spec's decision D4 (log 9). -/
def Obligations.DecimalDigitsStored : Prop :=
  ∀ (x : Reg) (s : State), Memory.wf s.params s.mem = true →
    (encode (.ldB x)).toNat = 0xF033 + 256 * x.toNat ∧
    (s.i.toNat > 4093 → ∃ t, exec (.ldB x) s = .next t ∧ Faulted 2 (encode (.ldB x)) s t) ∧
    (s.i.toNat ≤ 4093 → ∃ t, exec (.ldB x) s = .next t ∧ Advanced s t ∧
      (t.readByte (s.dataAddr 0)).toNat = (s.reg x).toNat / 100 ∧
      (t.readByte (s.dataAddr 1)).toNat = (s.reg x).toNat / 10 % 10 ∧
      (t.readByte (s.dataAddr 2)).toNat = (s.reg x).toNat % 10 ∧
      (∀ a, a < s.dataAddr 0 ∨ s.dataAddr 2 < a → t.readByte a = s.readByte a) ∧
      SameBut [.mem, .pc, .draw, .unknown] s t)

/-- R119: V[0] to V[x] at I to I + x, no other cell, I advanced in quirky mode only; or DATA_RANGE and no cell at all.
The fault is the spec's decision D4 (log 9). -/
def Obligations.RegistersStored : Prop :=
  ∀ (x : Reg) (s : State), Memory.wf s.params s.mem = true →
    (encode (.storeRegs x)).toNat = 0xF055 + 256 * x.toNat ∧
    (s.i.toNat + x.toNat > 4095 → ∃ t, exec (.storeRegs x) s = .next t ∧ Faulted 2 (encode (.storeRegs x)) s t) ∧
    (s.i.toNat + x.toNat ≤ 4095 → ∃ t, exec (.storeRegs x) s = .next t ∧ Advanced s t ∧
      (∀ r : Reg, r.toNat ≤ x.toNat → t.readByte (s.dataAddr r.toNat) = s.reg r) ∧
      (∀ a, a < s.dataAddr 0 ∨ s.dataAddr x.toNat < a → t.readByte a = s.readByte a) ∧
      t.i.toNat = (if s.quirky then (s.i.toNat + x.toNat + 1) % 65536 else s.i.toNat) ∧
      SameBut [.mem, .index, .pc, .draw, .unknown] s t)

/-- R120: V[0] to V[x] from I to I + x, no other register, I advanced in quirky mode only; or DATA_RANGE and no register
at all.  The fault is the spec's decision D4 (log 9). -/
def Obligations.RegistersLoaded : Prop :=
  ∀ (x : Reg) (s : State),
    (encode (.loadRegs x)).toNat = 0xF065 + 256 * x.toNat ∧
    (s.i.toNat + x.toNat > 4095 → ∃ t, exec (.loadRegs x) s = .next t ∧ Faulted 2 (encode (.loadRegs x)) s t) ∧
    (s.i.toNat + x.toNat ≤ 4095 → ∃ t, exec (.loadRegs x) s = .next t ∧ Advanced s t ∧
      (∀ r : Reg, r.toNat ≤ x.toNat → t.reg r = s.readByte (s.dataAddr r.toNat)) ∧
      (∀ r : Reg, x.toNat < r.toNat → t.reg r = s.reg r) ∧
      t.i.toNat = (if s.quirky then (s.i.toNat + x.toNat + 1) % 65536 else s.i.toNat) ∧
      SameBut [.regs, .index, .pc, .draw, .unknown] s t)

/-- R119 with R120: in non-quirky mode an Fx65 after an Fx55 brings back every register stored, whatever the registers
hold in between. -/
def Obligations.StoreThenLoadRestores : Prop :=
  ∀ (x : Reg) (s t : State) (v : Vector Byte 16), Memory.wf s.params s.mem = true → s.quirky = false →
    s.i.toNat + x.toNat ≤ 4095 → exec (.storeRegs x) s = .next t →
    ∃ u, exec (.loadRegs x) { t with v := v } = .next u ∧ (∀ r : Reg, r.toNat ≤ x.toNat → u.reg r = s.reg r) ∧
      u.i = s.i ∧ ∀ a, u.readByte a = t.readByte a

/-! ## Display (R125 to R130) -/

/-- R125. -/
def Obligations.ClearScreen : Prop :=
  ∀ s : State, (encode .cls).toNat = 0x00E0 ∧
    ∃ t, exec .cls s = .next t ∧ (∀ c r, t.pixel c r = false) ∧ t.draw = true ∧ t.unknown = false ∧
      t.pc.toNat = (s.pc.toNat + 2) % 65536 ∧ SameBut [.fb, .draw, .pc, .unknown] s t

/-- R126, R128, R130 (a) to (c): with the sprite in memory, each pixel of the grid is toggled exactly when a set bit of
the sprite lands on it (clipped or wrapped by SPRITE_EDGE), VF is 1 exactly when one of those was enabled before, and
nothing else changes. The coordinates are the values the registers had before VF was zeroed.  The three values of
SPRITE_EDGE are decision D6 (log 6), and the coordinate in VF is decision D9 (log 11). -/
def Obligations.SpriteIsXored : Prop :=
  ∀ (x y : Reg) (n : Nat) (s : State), WellFormed (.drw x y n) → (n = 0 ∨ s.i.toNat + n - 1 ≤ 4095) →
    ¬ RefusedSprite s x y n →
    (encode (.drw x y n)).toNat = 0xD000 + 256 * x.toNat + 16 * y.toNat + n ∧
    ∃ t, exec (.drw x y n) s = .next t ∧
      (∀ c < 64, ∀ r < 32, (Lit s x y n c r → t.pixel c r = !s.pixel c r) ∧
        (¬ Lit s x y n c r → t.pixel c r = s.pixel c r)) ∧
      ((∃ c < 64, ∃ r < 32, Lit s x y n c r ∧ s.pixel c r = true) → t.reg regF = 1) ∧
      ((¬ ∃ c < 64, ∃ r < 32, Lit s x y n c r ∧ s.pixel c r = true) → t.reg regF = 0) ∧
      (∀ r, r ≠ regF → t.reg r = s.reg r) ∧ t.draw = true ∧ t.unknown = false ∧
      t.pc.toNat = (s.pc.toNat + 2) % 65536 ∧ SameBut [.regs, .fb, .draw, .pc, .unknown] s t

/-- R127: a sprite of no rows reads nothing, so it cannot fault; VF becomes 0, `draw` 1, and no pixel changes.  The spec
derives it from R126 with an empty loop. -/
def Obligations.EmptySprite : Prop :=
  ∀ (x y : Reg) (s : State), (encode (.drw x y 0)).toNat = 0xD000 + 256 * x.toNat + 16 * y.toNat ∧
    ∃ t, exec (.drw x y 0) s = .next t ∧ t.reg regF = 0 ∧ (∀ r, r ≠ regF → t.reg r = s.reg r) ∧ t.draw = true ∧
      t.unknown = false ∧ t.pc.toNat = (s.pc.toNat + 2) % 65536 ∧ SameBut [.regs, .draw, .pc, .unknown] s t

/-- R130 (d): drawing the same sprite again at the same place (the registers as they were) restores the framebuffer, and
the second draw collides when the first one turned some pixel on.  Where a set bit lands is SPRITE_EDGE, decision D6
(log 6). -/
def Obligations.DrawingTwiceRestores : Prop :=
  ∀ (x y : Reg) (n : Nat) (s t : State), WellFormed (.drw x y n) → (n = 0 ∨ s.i.toNat + n - 1 ≤ 4095) →
    exec (.drw x y n) s = .next t →
    ∃ u, exec (.drw x y n) { t with v := s.v } = .next u ∧ (∀ c r, u.pixel c r = s.pixel c r) ∧
      ((∃ c < 64, ∃ r < 32, Lit s x y n c r ∧ s.pixel c r = false) → u.reg regF = 1) ∧ u.draw = true

/-- R128: under the value `fail` of SPRITE_EDGE, and under no other, the model refuses a sprite that overhangs.  The
three values of SPRITE_EDGE are decision D6 (log 6). -/
def Obligations.OverhangRefusedUnderFail : Prop :=
  ∀ (x y : Reg) (n : Nat) (s : State),
    RefusedSprite s x y n ↔ exec (.drw x y n) s = .refused .spriteOffGrid

/-! ## Keypad (R135 to R138) -/

/-- R135, R136: the key index is the register's value; above 15 it faults, otherwise exactly one of the two skips.  The
fault is the spec's decision D8 (log 9). -/
def Obligations.SkipOnKey : Prop :=
  ∀ (x : Reg) (s : State),
    (encode (.skp x)).toNat = 0xE09E + 256 * x.toNat ∧ (encode (.sknp x)).toNat = 0xE0A1 + 256 * x.toNat ∧
    ((s.reg x).toNat > 15 → (∃ t, exec (.skp x) s = .next t ∧ Faulted 5 (encode (.skp x)) s t) ∧
      ∃ t, exec (.sknp x) s = .next t ∧ Faulted 5 (encode (.sknp x)) s t) ∧
    ((s.reg x).toNat ≤ 15 →
      (∃ t, exec (.skp x) s = .next t ∧ OnlyPc s t ∧
        t.pc.toNat = (s.pc.toNat + if s.keypad.getLsbD (s.reg x).toNat then 4 else 2) % 65536) ∧
      ∃ t, exec (.sknp x) s = .next t ∧ OnlyPc s t ∧
        t.pc.toNat = (s.pc.toNat + if s.keypad.getLsbD (s.reg x).toNat then 2 else 4) % 65536)

/-- R137: with a key down the lowest one's number is loaded; with none down `pc` stays and no register is written. -/
def Obligations.WaitForKey : Prop :=
  ∀ (x : Reg) (s : State), (encode (.ldVxK x)).toNat = 0xF00A + 256 * x.toNat ∧
    (∀ k < 16, s.keypad.getLsbD k = true → (∀ j < k, s.keypad.getLsbD j = false) →
      ∃ t, exec (.ldVxK x) s = .next t ∧ (t.reg x).toNat = k ∧ OnlyRegs [x] s t) ∧
    ((∀ k < 16, s.keypad.getLsbD k = false) →
      ∃ t, exec (.ldVxK x) s = .next t ∧ t.pc = s.pc ∧ OnlyPc s t)

/-! ## Timers (R140 to R143) -/

/-- R140, R141, R142: the execute phase of the three timer instructions. -/
def Obligations.TimerAccess : Prop :=
  ∀ (x : Reg) (s : State),
    (encode (.ldVxDT x)).toNat = 0xF007 + 256 * x.toNat ∧ (encode (.ldDTVx x)).toNat = 0xF015 + 256 * x.toNat ∧
    (encode (.ldSTVx x)).toNat = 0xF018 + 256 * x.toNat ∧
    (∃ t, exec (.ldVxDT x) s = .next t ∧ t.reg x = s.dt ∧ OnlyRegs [x] s t) ∧
    (∃ t, exec (.ldDTVx x) s = .next t ∧ t.dt = s.reg x ∧ Advanced s t ∧ SameBut [.dt, .pc, .draw, .unknown] s t) ∧
    (∃ t, exec (.ldSTVx x) s = .next t ∧ t.st = s.reg x ∧ Advanced s t ∧ SameBut [.st, .pc, .draw, .unknown] s t)

/-- R143: after the step that executes Fx15 with value `v`, and `j` more steps that write no DT, DT is `v - 1 - j` while
that is not negative and 0 after; an Fx07 executed then reads that value.  The run is of steps alone, with no key update
between them. -/
def Obligations.DelayCountdown : Prop :=
  ∀ (x : Reg) (s t u : State) (j : Nat), Executes s (.ldDTVx x) → step s = .next t →
    StepsAvoiding (fun i => ∃ x', i = .ldDTVx x') j t u →
    u.dt.toNat = (s.reg x).toNat - 1 - j ∧
    ∀ x' u', Executes u (.ldVxDT x') → step u = .next u' → (u'.reg x').toNat = (s.reg x).toNat - 1 - j

/-- R143: the sound timer written with `v` beeps on the step number `v` that counts it down (the writing step is the
first) and on no other step of that count-down.  The run is of steps alone, with no key update between them. -/
def Obligations.SoundBeepsOnce : Prop :=
  ∀ (x : Reg) (s t u : State) (j : Nat), Executes s (.ldSTVx x) → step s = .next t →
    StepsAvoiding (fun i => ∃ x', i = .ldSTVx x') j t u →
    (u.beep = true ↔ (s.reg x).toNat = j + 1) ∧ u.st.toNat = (s.reg x).toNat - 1 - j

/-! ## The end of a run (R183) -/

/-- R183: from a resting state, whatever keys the host presents, every later state is a resting state with `pc`, V, I,
`sp`, the stack, memory and the framebuffer unchanged, and a step leaves `draw` and `unknown` 0.  The resting state is
the spec's decision D18. -/
def Obligations.RestingStays : Prop :=
  ∀ (s : State) (ms : List Move), Resting s → ms.all Move.isKeysOrStep = true →
    ∃ t, s.runMoves ms = .next t ∧ Resting t ∧ SameBut [.dt, .st, .beep, .draw, .unknown, .keypad] s t ∧
      (.step ∈ ms → t.draw = false ∧ t.unknown = false)
end

