-- ==== Sys2Proof/Laws/Decode.lean ====
section
/-! SUPPORT. The bits of an encoded word, field by field, and a word rebuilt from its fields. -/

namespace Sys2Proof

theorem bits_formatA (op : BitVec 4) (nnn : Addr12) (i : Nat) :
    (formatA op nnn).getLsbD i = if i < 12 then nnn.getLsbD i else op.getLsbD (i - 12) :=
  (BitVec.getLsbD_append (x := op) (y := nnn) (i := i)).trans (by simp)

theorem bits_formatK (op : BitVec 4) (x : Reg) (kk : Byte) (i : Nat) :
    (formatK op x kk).getLsbD i =
      if i < 8 then kk.getLsbD i else if i < 12 then x.getLsbD (i - 8) else op.getLsbD (i - 12) := by
  refine (BitVec.getLsbD_append (x := op ++ x) (y := kk) (i := i)).trans ?_
  rw [BitVec.getLsbD_append, Nat.sub_sub]
  repeat' split
  all_goals first | rfl | omega

theorem bits_formatR (op : BitVec 4) (x y : Reg) (n : BitVec 4) (i : Nat) :
    (formatR op x y n).getLsbD i =
      if i < 4 then n.getLsbD i else if i < 8 then y.getLsbD (i - 4)
      else if i < 12 then x.getLsbD (i - 8) else op.getLsbD (i - 12) := by
  refine (BitVec.getLsbD_append (x := op ++ x ++ y) (y := n) (i := i)).trans ?_
  rw [BitVec.getLsbD_append, BitVec.getLsbD_append, Nat.sub_sub, Nat.sub_sub]
  repeat' split
  all_goals first | rfl | omega

section Fields

variable (op : BitVec 4) (x y : Reg) (n : BitVec 4) (kk : Byte) (nnn : Addr12)

@[simp] theorem opOf_formatA : opOf (formatA op nnn) = op := by
  ext i hi
  simp only [opOf, BitVec.getElem_extractLsb', bits_formatA]
  rw [if_neg (by omega), Nat.add_sub_cancel_left, BitVec.getLsbD_eq_getElem]

@[simp] theorem nnnOf_formatA : nnnOf (formatA op nnn) = nnn := by
  ext i hi
  simp only [nnnOf, BitVec.getElem_extractLsb', bits_formatA, Nat.zero_add]
  rw [if_pos hi, BitVec.getLsbD_eq_getElem]

@[simp] theorem opOf_formatK : opOf (formatK op x kk) = op := by
  ext i hi
  simp only [opOf, BitVec.getElem_extractLsb', bits_formatK]
  rw [if_neg (by omega), if_neg (by omega), Nat.add_sub_cancel_left, BitVec.getLsbD_eq_getElem]

@[simp] theorem xOf_formatK : xOf (formatK op x kk) = x := by
  ext i hi
  simp only [xOf, BitVec.getElem_extractLsb', bits_formatK]
  rw [if_neg (by omega), if_pos (by omega), Nat.add_sub_cancel_left, BitVec.getLsbD_eq_getElem]

@[simp] theorem kkOf_formatK : kkOf (formatK op x kk) = kk := by
  ext i hi
  simp only [kkOf, BitVec.getElem_extractLsb', bits_formatK, Nat.zero_add]
  rw [if_pos hi, BitVec.getLsbD_eq_getElem]

@[simp] theorem opOf_formatR : opOf (formatR op x y n) = op := by
  ext i hi
  simp only [opOf, BitVec.getElem_extractLsb', bits_formatR]
  rw [if_neg (by omega), if_neg (by omega), if_neg (by omega), Nat.add_sub_cancel_left, BitVec.getLsbD_eq_getElem]

@[simp] theorem xOf_formatR : xOf (formatR op x y n) = x := by
  ext i hi
  simp only [xOf, BitVec.getElem_extractLsb', bits_formatR]
  rw [if_neg (by omega), if_neg (by omega), if_pos (by omega), Nat.add_sub_cancel_left, BitVec.getLsbD_eq_getElem]

@[simp] theorem yOf_formatR : yOf (formatR op x y n) = y := by
  ext i hi
  simp only [yOf, BitVec.getElem_extractLsb', bits_formatR]
  rw [if_neg (by omega), if_pos (by omega), Nat.add_sub_cancel_left, BitVec.getLsbD_eq_getElem]

@[simp] theorem nOf_formatR : nOf (formatR op x y n) = n := by
  ext i hi
  simp only [nOf, BitVec.getElem_extractLsb', bits_formatR, Nat.zero_add]
  rw [if_pos hi, BitVec.getLsbD_eq_getElem]

end Fields

/-- A word is its fields `op` and `nnn` (R61). -/
theorem formatA_fields (w : Word) : formatA (opOf w) (nnnOf w) = w := by
  ext i hi
  rw [← BitVec.getLsbD_eq_getElem, ← BitVec.getLsbD_eq_getElem, bits_formatA]
  simp only [opOf, nnnOf, BitVec.getLsbD_extractLsb']
  split
  · simp_all
  · have h : i - 12 < 4 := by omega
    simp only [h, decide_true, Bool.true_and]
    congr 1; omega

/-- A word is its fields `op`, `x` and `kk` (R61). -/
theorem formatK_fields (w : Word) : formatK (opOf w) (xOf w) (kkOf w) = w := by
  ext i hi
  rw [← BitVec.getLsbD_eq_getElem, ← BitVec.getLsbD_eq_getElem, bits_formatK]
  simp only [opOf, xOf, kkOf, BitVec.getLsbD_extractLsb']
  split
  · simp_all
  · split
    · have h : i - 8 < 4 := by omega
      simp only [h, decide_true, Bool.true_and]
      congr 1; omega
    · have h : i - 12 < 4 := by omega
      simp only [h, decide_true, Bool.true_and]
      congr 1; omega

/-- A word is its fields `op`, `x`, `y` and `n` (R61). -/
theorem formatR_fields (w : Word) : formatR (opOf w) (xOf w) (yOf w) (nOf w) = w := by
  ext i hi
  rw [← BitVec.getLsbD_eq_getElem, ← BitVec.getLsbD_eq_getElem, bits_formatR]
  simp only [opOf, xOf, yOf, nOf, BitVec.getLsbD_extractLsb']
  split
  · simp_all
  · split
    · have h : i - 4 < 4 := by omega
      simp only [h, decide_true, Bool.true_and]
      congr 1; omega
    · split
      · have h : i - 8 < 4 := by omega
        simp only [h, decide_true, Bool.true_and]
        congr 1; omega
      · have h : i - 12 < 4 := by omega
        simp only [h, decide_true, Bool.true_and]
        congr 1; omega

/-- The word the decoder reads from its own two bytes (R42). -/
@[simp] theorem wordOfBytes_high_low (w : Word) : wordOfBytes (highByte w) (lowByte w) = w := by
  have h : ∀ i, (wordOfBytes (highByte w) (lowByte w)).getLsbD i = w.getLsbD i := fun i => by
    refine (BitVec.getLsbD_append (x := highByte w) (y := lowByte w) (i := i)).trans ?_
    simp only [highByte, lowByte, BitVec.getLsbD_extractLsb']
    split
    · simp_all
    · by_cases h : i - 8 < 8
      · simp only [h, decide_true, Bool.true_and]
        congr 1; omega
      · simp only [h, decide_false, Bool.false_and]
        exact (BitVec.getLsbD_of_ge w i (by omega)).symm
  exact BitVec.eq_of_getLsbD_eq fun i _ => h i

/-- The two bytes as one big-endian number (R42). -/
theorem wordOfBytes_toNat (hi lo : Byte) : (wordOfBytes hi lo).toNat = hi.toNat * 256 + lo.toNat := by
  refine (BitVec.toNat_append hi lo).trans ?_
  rw [← Nat.shiftLeft_add_eq_or_of_lt lo.isLt, Nat.shiftLeft_eq]

/-- The high byte holds `op` and `x`, the low byte is `kk` (R42). -/
@[simp] theorem lowByte_eq_kkOf (w : Word) : lowByte w = kkOf w := rfl

end Sys2Proof
end

