-- ==== Sys2Proof/Laws/Memory.lean ====
section
/-! SUPPORT. The laws of memory: read after write, the canonical form is kept, and equal memories are equal lists. -/

namespace Sys2Proof.Machine

theorem Memory.wfFrom_cons {p : Params} {lo b : Nat} {u : Byte} {m : Memory} :
    Memory.wfFrom p lo ((b, u) :: m) = true ↔
      lo ≤ b ∧ b < 4096 ∧ u ≠ initByte p b ∧ Memory.wfFrom p (b + 1) m = true := by
  simp [Memory.wfFrom, and_assoc]

theorem Memory.wfFrom_mono {p : Params} {lo lo' : Nat} {m : Memory} (hle : lo' ≤ lo)
    (h : Memory.wfFrom p lo m = true) : Memory.wfFrom p lo' m = true := by
  cases m with
  | nil => rfl
  | cons c m =>
    obtain ⟨b, u⟩ := c
    rw [Memory.wfFrom_cons] at h ⊢
    exact ⟨by omega, h.2⟩

/-- An address below the first listed one reads as unlisted. -/
theorem Memory.read_of_lt {p : Params} {m : Memory} {lo a : Nat} (h : Memory.wfFrom p lo m = true) (ha : a < lo) :
    Memory.read p m a = initByte p a := by
  induction m generalizing lo with
  | nil => rfl
  | cons c m ih =>
    obtain ⟨b, u⟩ := c
    rw [Memory.wfFrom_cons] at h
    rw [Memory.read, if_neg (by omega)]
    exact ih h.2.2.2 (by omega)

theorem Memory.read_put {p : Params} {m : Memory} {lo : Nat} (h : Memory.wfFrom p lo m = true) (a k : Nat) (x : Byte) :
    Memory.read p (Memory.put p a x m) k = if k = a then x else Memory.read p m k := by
  induction m generalizing lo with
  | nil =>
    unfold Memory.put
    split <;> simp_all [Memory.read]
  | cons c m ih =>
    obtain ⟨b, u⟩ := c
    rw [Memory.wfFrom_cons] at h
    obtain ⟨_, _, _, hm⟩ := h
    have hlt : k < b + 1 → Memory.read p m k = initByte p k := Memory.read_of_lt hm
    unfold Memory.put
    by_cases h1 : a < b
    · rw [if_pos h1]
      by_cases hx : x = initByte p a
      · rw [if_pos hx]
        by_cases hk : k = a
        · subst hk
          rw [if_pos rfl, Memory.read, if_neg (by omega), hlt (by omega), hx]
        · rw [if_neg hk]
      · rw [if_neg hx, Memory.read]
    · rw [if_neg h1]
      by_cases h2 : a = b
      · subst h2
        rw [if_pos rfl]
        by_cases hx : x = initByte p a
        · rw [if_pos hx, Memory.read]
          by_cases hk : k = a
          · subst hk
            rw [if_pos rfl, hlt (by omega), hx]
          · rw [if_neg hk, if_neg hk]
        · rw [if_neg hx, Memory.read, Memory.read]
          split <;> rfl
      · rw [if_neg h2, Memory.read, Memory.read, ih hm]
        by_cases hk : k = b
        · rw [if_pos hk, if_neg (by omega), if_pos hk]
        · rw [if_neg hk, if_neg hk]

theorem Memory.put_wfFrom {p : Params} {m : Memory} {lo : Nat} (h : Memory.wfFrom p lo m = true) {a : Nat} (x : Byte)
    (hlo : lo ≤ a) (ha : a < 4096) : Memory.wfFrom p lo (Memory.put p a x m) = true := by
  induction m generalizing lo with
  | nil =>
    unfold Memory.put
    split
    · rfl
    · rw [Memory.wfFrom_cons]
      exact ⟨hlo, ha, by assumption, rfl⟩
  | cons c m ih =>
    obtain ⟨b, u⟩ := c
    have h' := h
    rw [Memory.wfFrom_cons] at h
    obtain ⟨hb, hb', hu, hm⟩ := h
    unfold Memory.put
    by_cases h1 : a < b
    · rw [if_pos h1]
      split
      · exact h'
      · rw [Memory.wfFrom_cons, Memory.wfFrom_cons]
        exact ⟨hlo, ha, by assumption, by omega, hb', hu, hm⟩
    · rw [if_neg h1]
      by_cases h2 : a = b
      · subst h2
        rw [if_pos rfl]
        split
        · exact Memory.wfFrom_mono (by omega) hm
        · rw [Memory.wfFrom_cons]
          exact ⟨hlo, ha, by assumption, hm⟩
      · rw [if_neg h2, Memory.wfFrom_cons]
        exact ⟨hb, hb', hu, ih hm (by omega)⟩

/-- Every write keeps the canonical form. -/
theorem Memory.write_wf {p : Params} {m : Memory} (h : Memory.wf p m = true) (a : Nat) (x : Byte) :
    Memory.wf p (Memory.write p m a x) = true := by
  unfold Memory.write
  split
  · exact Memory.put_wfFrom h x (Nat.zero_le a) (by assumption)
  · exact h

/-- What a write does, to every address. -/
theorem Memory.read_write {p : Params} {m : Memory} (h : Memory.wf p m = true) (a k : Nat) (x : Byte) :
    Memory.read p (Memory.write p m a x) k = if k = a ∧ a < 4096 then x else Memory.read p m k := by
  unfold Memory.write
  split
  · rename_i ha
    simp [Memory.read_put h, ha]
  · rename_i ha
    simp [ha]

/-- A canonical memory that lists nothing below `lo` and reads everywhere as unlisted is empty. -/
theorem Memory.eq_nil_of_read {p : Params} {m : Memory} {lo : Nat} (h : Memory.wfFrom p lo m = true)
    (hr : ∀ a, Memory.read p m a = initByte p a) : m = [] := by
  cases m with
  | nil => rfl
  | cons c m =>
    obtain ⟨b, u⟩ := c
    have := hr b
    rw [Memory.wfFrom_cons] at h
    rw [Memory.read, if_pos rfl] at this
    exact absurd this h.2.2.1

/-- Equal memories are equal data: two canonical lists that read alike are one list. -/
theorem Memory.eq_of_read {p : Params} {m m' : Memory} {lo lo' : Nat} (h : Memory.wfFrom p lo m = true)
    (h' : Memory.wfFrom p lo' m' = true) (hr : ∀ a, Memory.read p m a = Memory.read p m' a) : m = m' := by
  induction m generalizing m' lo lo' with
  | nil => exact (Memory.eq_nil_of_read h' fun a => (hr a).symm).symm
  | cons c m ih =>
    obtain ⟨b, u⟩ := c
    cases m' with
    | nil => exact Memory.eq_nil_of_read h hr
    | cons c' m' =>
      obtain ⟨b', u'⟩ := c'
      rw [Memory.wfFrom_cons] at h h'
      obtain ⟨_, _, hu, hm⟩ := h
      obtain ⟨_, _, hu', hm'⟩ := h'
      have hb := hr b
      have hb' := hr b'
      simp only [Memory.read, if_true] at hb hb'
      have e : b = b' := by
        rcases Nat.lt_trichotomy b b' with hlt | heq | hgt
        · rw [if_neg (by omega), Memory.read_of_lt hm' (by omega)] at hb
          exact absurd hb hu
        · exact heq
        · rw [if_neg (by omega), Memory.read_of_lt hm (by omega)] at hb'
          exact absurd hb'.symm hu'
      subst e
      simp only [if_true] at hb
      subst hb
      refine congrArg _ (ih hm hm' fun a => ?_)
      have ha := hr a
      simp only [Memory.read] at ha
      by_cases hab : a = b
      · subst hab
        rw [Memory.read_of_lt hm (by omega), Memory.read_of_lt hm' (by omega)]
      · rwa [if_neg hab, if_neg hab] at ha

/-- What a store of one byte does, to every address. -/
theorem State.readByte_writeByte {s : State} (h : Memory.wf s.params s.mem = true) (a k : Nat) (x : Byte) :
    (s.writeByte a x).readByte k = if k = a ∧ a < 4096 then x else s.readByte k :=
  Memory.read_write h a k x

/-- A store keeps the canonical form. -/
theorem State.writeByte_wf {s : State} (h : Memory.wf s.params s.mem = true) (a : Nat) (x : Byte) :
    Memory.wf (s.writeByte a x).params (s.writeByte a x).mem = true :=
  Memory.write_wf h a x

end Sys2Proof.Machine
end

