-- ==== Sys2Proof/Laws/State.lean ====
section
/-! SUPPORT. One lemma per field per update, and per accessor per update that leaves its fields alone. -/

namespace Sys2Proof.Machine

variable (s : State)

/-! ### `State.setReg` -/

@[simp] theorem State.setReg_v (x : Reg) (b : Byte) : (s.setReg x b).v = s.v.set x.toNat b := rfl
@[simp] theorem State.setReg_pc (x : Reg) (b : Byte) : (s.setReg x b).pc = s.pc := rfl
@[simp] theorem State.setReg_i (x : Reg) (b : Byte) : (s.setReg x b).i = s.i := rfl
@[simp] theorem State.setReg_sp (x : Reg) (b : Byte) : (s.setReg x b).sp = s.sp := rfl
@[simp] theorem State.setReg_stack (x : Reg) (b : Byte) : (s.setReg x b).stack = s.stack := rfl
@[simp] theorem State.setReg_dt (x : Reg) (b : Byte) : (s.setReg x b).dt = s.dt := rfl
@[simp] theorem State.setReg_st (x : Reg) (b : Byte) : (s.setReg x b).st = s.st := rfl
@[simp] theorem State.setReg_mem (x : Reg) (b : Byte) : (s.setReg x b).mem = s.mem := rfl
@[simp] theorem State.setReg_fb (x : Reg) (b : Byte) : (s.setReg x b).fb = s.fb := rfl
@[simp] theorem State.setReg_draw (x : Reg) (b : Byte) : (s.setReg x b).draw = s.draw := rfl
@[simp] theorem State.setReg_beep (x : Reg) (b : Byte) : (s.setReg x b).beep = s.beep := rfl
@[simp] theorem State.setReg_unknown (x : Reg) (b : Byte) : (s.setReg x b).unknown = s.unknown := rfl
@[simp] theorem State.setReg_unknownWord (x : Reg) (b : Byte) : (s.setReg x b).unknownWord = s.unknownWord := rfl
@[simp] theorem State.setReg_faultCause (x : Reg) (b : Byte) : (s.setReg x b).faultCause = s.faultCause := rfl
@[simp] theorem State.setReg_faultPc (x : Reg) (b : Byte) : (s.setReg x b).faultPc = s.faultPc := rfl
@[simp] theorem State.setReg_faultInfo (x : Reg) (b : Byte) : (s.setReg x b).faultInfo = s.faultInfo := rfl
@[simp] theorem State.setReg_quirky (x : Reg) (b : Byte) : (s.setReg x b).quirky = s.quirky := rfl
@[simp] theorem State.setReg_keypad (x : Reg) (b : Byte) : (s.setReg x b).keypad = s.keypad := rfl
@[simp] theorem State.setReg_params (x : Reg) (b : Byte) : (s.setReg x b).params = s.params := rfl
@[simp] theorem State.setReg_draws (x : Reg) (b : Byte) : (s.setReg x b).draws = s.draws := rfl
@[simp] theorem State.setReg_readByte (x : Reg) (b : Byte) (k : Nat) : (s.setReg x b).readByte k = s.readByte k := rfl
@[simp] theorem State.setReg_stackAt (x : Reg) (b : Byte) (k : Nat) : (s.setReg x b).stackAt k = s.stackAt k := rfl
@[simp] theorem State.setReg_dataAddr (x : Reg) (b : Byte) (k : Nat) : (s.setReg x b).dataAddr k = s.dataAddr k := rfl
@[simp] theorem State.setReg_keyDown (x : Reg) (b : Byte) (k : Nat) : (s.setReg x b).keyDown k = s.keyDown k := rfl
@[simp] theorem State.setReg_halted (x : Reg) (b : Byte) : (s.setReg x b).halted = s.halted := rfl

/-! ### `State.setI` -/

@[simp] theorem State.setI_v (w : Word) : (s.setI w).v = s.v := rfl
@[simp] theorem State.setI_pc (w : Word) : (s.setI w).pc = s.pc := rfl
@[simp] theorem State.setI_i (w : Word) : (s.setI w).i = w := rfl
@[simp] theorem State.setI_sp (w : Word) : (s.setI w).sp = s.sp := rfl
@[simp] theorem State.setI_stack (w : Word) : (s.setI w).stack = s.stack := rfl
@[simp] theorem State.setI_dt (w : Word) : (s.setI w).dt = s.dt := rfl
@[simp] theorem State.setI_st (w : Word) : (s.setI w).st = s.st := rfl
@[simp] theorem State.setI_mem (w : Word) : (s.setI w).mem = s.mem := rfl
@[simp] theorem State.setI_fb (w : Word) : (s.setI w).fb = s.fb := rfl
@[simp] theorem State.setI_draw (w : Word) : (s.setI w).draw = s.draw := rfl
@[simp] theorem State.setI_beep (w : Word) : (s.setI w).beep = s.beep := rfl
@[simp] theorem State.setI_unknown (w : Word) : (s.setI w).unknown = s.unknown := rfl
@[simp] theorem State.setI_unknownWord (w : Word) : (s.setI w).unknownWord = s.unknownWord := rfl
@[simp] theorem State.setI_faultCause (w : Word) : (s.setI w).faultCause = s.faultCause := rfl
@[simp] theorem State.setI_faultPc (w : Word) : (s.setI w).faultPc = s.faultPc := rfl
@[simp] theorem State.setI_faultInfo (w : Word) : (s.setI w).faultInfo = s.faultInfo := rfl
@[simp] theorem State.setI_quirky (w : Word) : (s.setI w).quirky = s.quirky := rfl
@[simp] theorem State.setI_keypad (w : Word) : (s.setI w).keypad = s.keypad := rfl
@[simp] theorem State.setI_params (w : Word) : (s.setI w).params = s.params := rfl
@[simp] theorem State.setI_draws (w : Word) : (s.setI w).draws = s.draws := rfl
@[simp] theorem State.setI_reg (w : Word) (r : Reg) : (s.setI w).reg r = s.reg r := rfl
@[simp] theorem State.setI_readByte (w : Word) (k : Nat) : (s.setI w).readByte k = s.readByte k := rfl
@[simp] theorem State.setI_stackAt (w : Word) (k : Nat) : (s.setI w).stackAt k = s.stackAt k := rfl
@[simp] theorem State.setI_keyDown (w : Word) (k : Nat) : (s.setI w).keyDown k = s.keyDown k := rfl
@[simp] theorem State.setI_halted (w : Word) : (s.setI w).halted = s.halted := rfl

/-! ### `State.setPc` -/

@[simp] theorem State.setPc_v (w : Word) : (s.setPc w).v = s.v := rfl
@[simp] theorem State.setPc_pc (w : Word) : (s.setPc w).pc = w := rfl
@[simp] theorem State.setPc_i (w : Word) : (s.setPc w).i = s.i := rfl
@[simp] theorem State.setPc_sp (w : Word) : (s.setPc w).sp = s.sp := rfl
@[simp] theorem State.setPc_stack (w : Word) : (s.setPc w).stack = s.stack := rfl
@[simp] theorem State.setPc_dt (w : Word) : (s.setPc w).dt = s.dt := rfl
@[simp] theorem State.setPc_st (w : Word) : (s.setPc w).st = s.st := rfl
@[simp] theorem State.setPc_mem (w : Word) : (s.setPc w).mem = s.mem := rfl
@[simp] theorem State.setPc_fb (w : Word) : (s.setPc w).fb = s.fb := rfl
@[simp] theorem State.setPc_draw (w : Word) : (s.setPc w).draw = s.draw := rfl
@[simp] theorem State.setPc_beep (w : Word) : (s.setPc w).beep = s.beep := rfl
@[simp] theorem State.setPc_unknown (w : Word) : (s.setPc w).unknown = s.unknown := rfl
@[simp] theorem State.setPc_unknownWord (w : Word) : (s.setPc w).unknownWord = s.unknownWord := rfl
@[simp] theorem State.setPc_faultCause (w : Word) : (s.setPc w).faultCause = s.faultCause := rfl
@[simp] theorem State.setPc_faultPc (w : Word) : (s.setPc w).faultPc = s.faultPc := rfl
@[simp] theorem State.setPc_faultInfo (w : Word) : (s.setPc w).faultInfo = s.faultInfo := rfl
@[simp] theorem State.setPc_quirky (w : Word) : (s.setPc w).quirky = s.quirky := rfl
@[simp] theorem State.setPc_keypad (w : Word) : (s.setPc w).keypad = s.keypad := rfl
@[simp] theorem State.setPc_params (w : Word) : (s.setPc w).params = s.params := rfl
@[simp] theorem State.setPc_draws (w : Word) : (s.setPc w).draws = s.draws := rfl
@[simp] theorem State.setPc_reg (w : Word) (r : Reg) : (s.setPc w).reg r = s.reg r := rfl
@[simp] theorem State.setPc_readByte (w : Word) (k : Nat) : (s.setPc w).readByte k = s.readByte k := rfl
@[simp] theorem State.setPc_stackAt (w : Word) (k : Nat) : (s.setPc w).stackAt k = s.stackAt k := rfl
@[simp] theorem State.setPc_dataAddr (w : Word) (k : Nat) : (s.setPc w).dataAddr k = s.dataAddr k := rfl
@[simp] theorem State.setPc_keyDown (w : Word) (k : Nat) : (s.setPc w).keyDown k = s.keyDown k := rfl
@[simp] theorem State.setPc_halted (w : Word) : (s.setPc w).halted = s.halted := rfl

/-! ### `State.skipIf` -/

@[simp] theorem State.skipIf_v (c : Bool) : (s.skipIf c).v = s.v := rfl
@[simp] theorem State.skipIf_pc (c : Bool) : (s.skipIf c).pc = (if c then s.pc + 2 else s.pc) := rfl
@[simp] theorem State.skipIf_i (c : Bool) : (s.skipIf c).i = s.i := rfl
@[simp] theorem State.skipIf_sp (c : Bool) : (s.skipIf c).sp = s.sp := rfl
@[simp] theorem State.skipIf_stack (c : Bool) : (s.skipIf c).stack = s.stack := rfl
@[simp] theorem State.skipIf_dt (c : Bool) : (s.skipIf c).dt = s.dt := rfl
@[simp] theorem State.skipIf_st (c : Bool) : (s.skipIf c).st = s.st := rfl
@[simp] theorem State.skipIf_mem (c : Bool) : (s.skipIf c).mem = s.mem := rfl
@[simp] theorem State.skipIf_fb (c : Bool) : (s.skipIf c).fb = s.fb := rfl
@[simp] theorem State.skipIf_draw (c : Bool) : (s.skipIf c).draw = s.draw := rfl
@[simp] theorem State.skipIf_beep (c : Bool) : (s.skipIf c).beep = s.beep := rfl
@[simp] theorem State.skipIf_unknown (c : Bool) : (s.skipIf c).unknown = s.unknown := rfl
@[simp] theorem State.skipIf_unknownWord (c : Bool) : (s.skipIf c).unknownWord = s.unknownWord := rfl
@[simp] theorem State.skipIf_faultCause (c : Bool) : (s.skipIf c).faultCause = s.faultCause := rfl
@[simp] theorem State.skipIf_faultPc (c : Bool) : (s.skipIf c).faultPc = s.faultPc := rfl
@[simp] theorem State.skipIf_faultInfo (c : Bool) : (s.skipIf c).faultInfo = s.faultInfo := rfl
@[simp] theorem State.skipIf_quirky (c : Bool) : (s.skipIf c).quirky = s.quirky := rfl
@[simp] theorem State.skipIf_keypad (c : Bool) : (s.skipIf c).keypad = s.keypad := rfl
@[simp] theorem State.skipIf_params (c : Bool) : (s.skipIf c).params = s.params := rfl
@[simp] theorem State.skipIf_draws (c : Bool) : (s.skipIf c).draws = s.draws := rfl
@[simp] theorem State.skipIf_reg (c : Bool) (r : Reg) : (s.skipIf c).reg r = s.reg r := rfl
@[simp] theorem State.skipIf_readByte (c : Bool) (k : Nat) : (s.skipIf c).readByte k = s.readByte k := rfl
@[simp] theorem State.skipIf_stackAt (c : Bool) (k : Nat) : (s.skipIf c).stackAt k = s.stackAt k := rfl
@[simp] theorem State.skipIf_dataAddr (c : Bool) (k : Nat) : (s.skipIf c).dataAddr k = s.dataAddr k := rfl
@[simp] theorem State.skipIf_keyDown (c : Bool) (k : Nat) : (s.skipIf c).keyDown k = s.keyDown k := rfl
@[simp] theorem State.skipIf_halted (c : Bool) : (s.skipIf c).halted = s.halted := rfl

/-! ### `State.push` -/

@[simp] theorem State.push_v (w : Word) : (s.push w).v = s.v := rfl
@[simp] theorem State.push_pc (w : Word) : (s.push w).pc = s.pc := rfl
@[simp] theorem State.push_i (w : Word) : (s.push w).i = s.i := rfl
@[simp] theorem State.push_sp (w : Word) : (s.push w).sp = s.sp + 1 := rfl
@[simp] theorem State.push_stack (w : Word) : (s.push w).stack = s.stack.setIfInBounds s.sp.toNat w := rfl
@[simp] theorem State.push_dt (w : Word) : (s.push w).dt = s.dt := rfl
@[simp] theorem State.push_st (w : Word) : (s.push w).st = s.st := rfl
@[simp] theorem State.push_mem (w : Word) : (s.push w).mem = s.mem := rfl
@[simp] theorem State.push_fb (w : Word) : (s.push w).fb = s.fb := rfl
@[simp] theorem State.push_draw (w : Word) : (s.push w).draw = s.draw := rfl
@[simp] theorem State.push_beep (w : Word) : (s.push w).beep = s.beep := rfl
@[simp] theorem State.push_unknown (w : Word) : (s.push w).unknown = s.unknown := rfl
@[simp] theorem State.push_unknownWord (w : Word) : (s.push w).unknownWord = s.unknownWord := rfl
@[simp] theorem State.push_faultCause (w : Word) : (s.push w).faultCause = s.faultCause := rfl
@[simp] theorem State.push_faultPc (w : Word) : (s.push w).faultPc = s.faultPc := rfl
@[simp] theorem State.push_faultInfo (w : Word) : (s.push w).faultInfo = s.faultInfo := rfl
@[simp] theorem State.push_quirky (w : Word) : (s.push w).quirky = s.quirky := rfl
@[simp] theorem State.push_keypad (w : Word) : (s.push w).keypad = s.keypad := rfl
@[simp] theorem State.push_params (w : Word) : (s.push w).params = s.params := rfl
@[simp] theorem State.push_draws (w : Word) : (s.push w).draws = s.draws := rfl
@[simp] theorem State.push_reg (w : Word) (r : Reg) : (s.push w).reg r = s.reg r := rfl
@[simp] theorem State.push_readByte (w : Word) (k : Nat) : (s.push w).readByte k = s.readByte k := rfl
@[simp] theorem State.push_dataAddr (w : Word) (k : Nat) : (s.push w).dataAddr k = s.dataAddr k := rfl
@[simp] theorem State.push_keyDown (w : Word) (k : Nat) : (s.push w).keyDown k = s.keyDown k := rfl
@[simp] theorem State.push_halted (w : Word) : (s.push w).halted = s.halted := rfl

/-! ### `State.pop` -/

@[simp] theorem State.pop_v : (s.pop).v = s.v := rfl
@[simp] theorem State.pop_pc : (s.pop).pc = s.stackAt (s.sp - 1).toNat := rfl
@[simp] theorem State.pop_i : (s.pop).i = s.i := rfl
@[simp] theorem State.pop_sp : (s.pop).sp = s.sp - 1 := rfl
@[simp] theorem State.pop_stack : (s.pop).stack = s.stack := rfl
@[simp] theorem State.pop_dt : (s.pop).dt = s.dt := rfl
@[simp] theorem State.pop_st : (s.pop).st = s.st := rfl
@[simp] theorem State.pop_mem : (s.pop).mem = s.mem := rfl
@[simp] theorem State.pop_fb : (s.pop).fb = s.fb := rfl
@[simp] theorem State.pop_draw : (s.pop).draw = s.draw := rfl
@[simp] theorem State.pop_beep : (s.pop).beep = s.beep := rfl
@[simp] theorem State.pop_unknown : (s.pop).unknown = s.unknown := rfl
@[simp] theorem State.pop_unknownWord : (s.pop).unknownWord = s.unknownWord := rfl
@[simp] theorem State.pop_faultCause : (s.pop).faultCause = s.faultCause := rfl
@[simp] theorem State.pop_faultPc : (s.pop).faultPc = s.faultPc := rfl
@[simp] theorem State.pop_faultInfo : (s.pop).faultInfo = s.faultInfo := rfl
@[simp] theorem State.pop_quirky : (s.pop).quirky = s.quirky := rfl
@[simp] theorem State.pop_keypad : (s.pop).keypad = s.keypad := rfl
@[simp] theorem State.pop_params : (s.pop).params = s.params := rfl
@[simp] theorem State.pop_draws : (s.pop).draws = s.draws := rfl
@[simp] theorem State.pop_reg (r : Reg) : (s.pop).reg r = s.reg r := rfl
@[simp] theorem State.pop_readByte (k : Nat) : (s.pop).readByte k = s.readByte k := rfl
@[simp] theorem State.pop_stackAt (k : Nat) : (s.pop).stackAt k = s.stackAt k := rfl
@[simp] theorem State.pop_dataAddr (k : Nat) : (s.pop).dataAddr k = s.dataAddr k := rfl
@[simp] theorem State.pop_keyDown (k : Nat) : (s.pop).keyDown k = s.keyDown k := rfl
@[simp] theorem State.pop_halted : (s.pop).halted = s.halted := rfl

/-! ### `State.raise` -/

@[simp] theorem State.raise_v (c : FaultCause) (w : Word) : (s.raise c w).v = s.v := rfl
@[simp] theorem State.raise_pc (c : FaultCause) (w : Word) : (s.raise c w).pc = s.pc := rfl
@[simp] theorem State.raise_i (c : FaultCause) (w : Word) : (s.raise c w).i = s.i := rfl
@[simp] theorem State.raise_sp (c : FaultCause) (w : Word) : (s.raise c w).sp = s.sp := rfl
@[simp] theorem State.raise_stack (c : FaultCause) (w : Word) : (s.raise c w).stack = s.stack := rfl
@[simp] theorem State.raise_dt (c : FaultCause) (w : Word) : (s.raise c w).dt = s.dt := rfl
@[simp] theorem State.raise_st (c : FaultCause) (w : Word) : (s.raise c w).st = s.st := rfl
@[simp] theorem State.raise_mem (c : FaultCause) (w : Word) : (s.raise c w).mem = s.mem := rfl
@[simp] theorem State.raise_fb (c : FaultCause) (w : Word) : (s.raise c w).fb = s.fb := rfl
@[simp] theorem State.raise_draw (c : FaultCause) (w : Word) : (s.raise c w).draw = false := rfl
@[simp] theorem State.raise_beep (c : FaultCause) (w : Word) : (s.raise c w).beep = false := rfl
@[simp] theorem State.raise_unknown (c : FaultCause) (w : Word) : (s.raise c w).unknown = false := rfl
@[simp] theorem State.raise_unknownWord (c : FaultCause) (w : Word) : (s.raise c w).unknownWord = s.unknownWord := rfl
@[simp] theorem State.raise_faultCause (c : FaultCause) (w : Word) : (s.raise c w).faultCause = c.code := rfl
@[simp] theorem State.raise_faultPc (c : FaultCause) (w : Word) : (s.raise c w).faultPc = s.pc := rfl
@[simp] theorem State.raise_faultInfo (c : FaultCause) (w : Word) : (s.raise c w).faultInfo = w := rfl
@[simp] theorem State.raise_quirky (c : FaultCause) (w : Word) : (s.raise c w).quirky = s.quirky := rfl
@[simp] theorem State.raise_keypad (c : FaultCause) (w : Word) : (s.raise c w).keypad = s.keypad := rfl
@[simp] theorem State.raise_params (c : FaultCause) (w : Word) : (s.raise c w).params = s.params := rfl
@[simp] theorem State.raise_draws (c : FaultCause) (w : Word) : (s.raise c w).draws = s.draws := rfl
@[simp] theorem State.raise_reg (c : FaultCause) (w : Word) (r : Reg) : (s.raise c w).reg r = s.reg r := rfl
@[simp] theorem State.raise_readByte (c : FaultCause) (w : Word) (k : Nat) : (s.raise c w).readByte k = s.readByte k := rfl
@[simp] theorem State.raise_stackAt (c : FaultCause) (w : Word) (k : Nat) : (s.raise c w).stackAt k = s.stackAt k := rfl
@[simp] theorem State.raise_dataAddr (c : FaultCause) (w : Word) (k : Nat) : (s.raise c w).dataAddr k = s.dataAddr k := rfl
@[simp] theorem State.raise_keyDown (c : FaultCause) (w : Word) (k : Nat) : (s.raise c w).keyDown k = s.keyDown k := rfl

/-! ### `State.idle` -/

@[simp] theorem State.idle_v : (s.idle).v = s.v := rfl
@[simp] theorem State.idle_pc : (s.idle).pc = s.pc := rfl
@[simp] theorem State.idle_i : (s.idle).i = s.i := rfl
@[simp] theorem State.idle_sp : (s.idle).sp = s.sp := rfl
@[simp] theorem State.idle_stack : (s.idle).stack = s.stack := rfl
@[simp] theorem State.idle_dt : (s.idle).dt = s.dt := rfl
@[simp] theorem State.idle_st : (s.idle).st = s.st := rfl
@[simp] theorem State.idle_mem : (s.idle).mem = s.mem := rfl
@[simp] theorem State.idle_fb : (s.idle).fb = s.fb := rfl
@[simp] theorem State.idle_draw : (s.idle).draw = false := rfl
@[simp] theorem State.idle_beep : (s.idle).beep = false := rfl
@[simp] theorem State.idle_unknown : (s.idle).unknown = false := rfl
@[simp] theorem State.idle_unknownWord : (s.idle).unknownWord = s.unknownWord := rfl
@[simp] theorem State.idle_faultCause : (s.idle).faultCause = s.faultCause := rfl
@[simp] theorem State.idle_faultPc : (s.idle).faultPc = s.faultPc := rfl
@[simp] theorem State.idle_faultInfo : (s.idle).faultInfo = s.faultInfo := rfl
@[simp] theorem State.idle_quirky : (s.idle).quirky = s.quirky := rfl
@[simp] theorem State.idle_keypad : (s.idle).keypad = s.keypad := rfl
@[simp] theorem State.idle_params : (s.idle).params = s.params := rfl
@[simp] theorem State.idle_draws : (s.idle).draws = s.draws := rfl
@[simp] theorem State.idle_reg (r : Reg) : (s.idle).reg r = s.reg r := rfl
@[simp] theorem State.idle_readByte (k : Nat) : (s.idle).readByte k = s.readByte k := rfl
@[simp] theorem State.idle_stackAt (k : Nat) : (s.idle).stackAt k = s.stackAt k := rfl
@[simp] theorem State.idle_dataAddr (k : Nat) : (s.idle).dataAddr k = s.dataAddr k := rfl
@[simp] theorem State.idle_keyDown (k : Nat) : (s.idle).keyDown k = s.keyDown k := rfl
@[simp] theorem State.idle_halted : (s.idle).halted = s.halted := rfl

/-! ### `State.advance` -/

@[simp] theorem State.advance_v : (s.advance).v = s.v := rfl
@[simp] theorem State.advance_pc : (s.advance).pc = s.pc + 2 := rfl
@[simp] theorem State.advance_i : (s.advance).i = s.i := rfl
@[simp] theorem State.advance_sp : (s.advance).sp = s.sp := rfl
@[simp] theorem State.advance_stack : (s.advance).stack = s.stack := rfl
@[simp] theorem State.advance_dt : (s.advance).dt = s.dt := rfl
@[simp] theorem State.advance_st : (s.advance).st = s.st := rfl
@[simp] theorem State.advance_mem : (s.advance).mem = s.mem := rfl
@[simp] theorem State.advance_fb : (s.advance).fb = s.fb := rfl
@[simp] theorem State.advance_draw : (s.advance).draw = false := rfl
@[simp] theorem State.advance_beep : (s.advance).beep = s.beep := rfl
@[simp] theorem State.advance_unknown : (s.advance).unknown = false := rfl
@[simp] theorem State.advance_unknownWord : (s.advance).unknownWord = s.unknownWord := rfl
@[simp] theorem State.advance_faultCause : (s.advance).faultCause = s.faultCause := rfl
@[simp] theorem State.advance_faultPc : (s.advance).faultPc = s.faultPc := rfl
@[simp] theorem State.advance_faultInfo : (s.advance).faultInfo = s.faultInfo := rfl
@[simp] theorem State.advance_quirky : (s.advance).quirky = s.quirky := rfl
@[simp] theorem State.advance_keypad : (s.advance).keypad = s.keypad := rfl
@[simp] theorem State.advance_params : (s.advance).params = s.params := rfl
@[simp] theorem State.advance_draws : (s.advance).draws = s.draws := rfl
@[simp] theorem State.advance_reg (r : Reg) : (s.advance).reg r = s.reg r := rfl
@[simp] theorem State.advance_readByte (k : Nat) : (s.advance).readByte k = s.readByte k := rfl
@[simp] theorem State.advance_stackAt (k : Nat) : (s.advance).stackAt k = s.stackAt k := rfl
@[simp] theorem State.advance_dataAddr (k : Nat) : (s.advance).dataAddr k = s.dataAddr k := rfl
@[simp] theorem State.advance_keyDown (k : Nat) : (s.advance).keyDown k = s.keyDown k := rfl
@[simp] theorem State.advance_halted : (s.advance).halted = s.halted := rfl

/-! ### `State.runUnknown` -/

@[simp] theorem State.runUnknown_v (w : Word) : (s.runUnknown w).v = s.v := rfl
@[simp] theorem State.runUnknown_pc (w : Word) : (s.runUnknown w).pc = s.pc + 2 := rfl
@[simp] theorem State.runUnknown_i (w : Word) : (s.runUnknown w).i = s.i := rfl
@[simp] theorem State.runUnknown_sp (w : Word) : (s.runUnknown w).sp = s.sp := rfl
@[simp] theorem State.runUnknown_stack (w : Word) : (s.runUnknown w).stack = s.stack := rfl
@[simp] theorem State.runUnknown_dt (w : Word) : (s.runUnknown w).dt = s.dt := rfl
@[simp] theorem State.runUnknown_st (w : Word) : (s.runUnknown w).st = s.st := rfl
@[simp] theorem State.runUnknown_mem (w : Word) : (s.runUnknown w).mem = s.mem := rfl
@[simp] theorem State.runUnknown_fb (w : Word) : (s.runUnknown w).fb = s.fb := rfl
@[simp] theorem State.runUnknown_draw (w : Word) : (s.runUnknown w).draw = false := rfl
@[simp] theorem State.runUnknown_beep (w : Word) : (s.runUnknown w).beep = s.beep := rfl
@[simp] theorem State.runUnknown_unknown (w : Word) : (s.runUnknown w).unknown = true := rfl
@[simp] theorem State.runUnknown_unknownWord (w : Word) : (s.runUnknown w).unknownWord = w := rfl
@[simp] theorem State.runUnknown_faultCause (w : Word) : (s.runUnknown w).faultCause = s.faultCause := rfl
@[simp] theorem State.runUnknown_faultPc (w : Word) : (s.runUnknown w).faultPc = s.faultPc := rfl
@[simp] theorem State.runUnknown_faultInfo (w : Word) : (s.runUnknown w).faultInfo = s.faultInfo := rfl
@[simp] theorem State.runUnknown_quirky (w : Word) : (s.runUnknown w).quirky = s.quirky := rfl
@[simp] theorem State.runUnknown_keypad (w : Word) : (s.runUnknown w).keypad = s.keypad := rfl
@[simp] theorem State.runUnknown_params (w : Word) : (s.runUnknown w).params = s.params := rfl
@[simp] theorem State.runUnknown_draws (w : Word) : (s.runUnknown w).draws = s.draws := rfl
@[simp] theorem State.runUnknown_reg (w : Word) (r : Reg) : (s.runUnknown w).reg r = s.reg r := rfl
@[simp] theorem State.runUnknown_readByte (w : Word) (k : Nat) : (s.runUnknown w).readByte k = s.readByte k := rfl
@[simp] theorem State.runUnknown_stackAt (w : Word) (k : Nat) : (s.runUnknown w).stackAt k = s.stackAt k := rfl
@[simp] theorem State.runUnknown_dataAddr (w : Word) (k : Nat) : (s.runUnknown w).dataAddr k = s.dataAddr k := rfl
@[simp] theorem State.runUnknown_keyDown (w : Word) (k : Nat) : (s.runUnknown w).keyDown k = s.keyDown k := rfl
@[simp] theorem State.runUnknown_halted (w : Word) : (s.runUnknown w).halted = s.halted := rfl

/-! ### `State.tick` -/

@[simp] theorem State.tick_v : (s.tick).v = s.v := rfl
@[simp] theorem State.tick_pc : (s.tick).pc = s.pc := rfl
@[simp] theorem State.tick_i : (s.tick).i = s.i := rfl
@[simp] theorem State.tick_sp : (s.tick).sp = s.sp := rfl
@[simp] theorem State.tick_stack : (s.tick).stack = s.stack := rfl
@[simp] theorem State.tick_dt : (s.tick).dt = countDown s.dt := rfl
@[simp] theorem State.tick_st : (s.tick).st = countDown s.st := rfl
@[simp] theorem State.tick_mem : (s.tick).mem = s.mem := rfl
@[simp] theorem State.tick_fb : (s.tick).fb = s.fb := rfl
@[simp] theorem State.tick_draw : (s.tick).draw = s.draw := rfl
@[simp] theorem State.tick_beep : (s.tick).beep = (s.st == 1) := rfl
@[simp] theorem State.tick_unknown : (s.tick).unknown = s.unknown := rfl
@[simp] theorem State.tick_unknownWord : (s.tick).unknownWord = s.unknownWord := rfl
@[simp] theorem State.tick_faultCause : (s.tick).faultCause = s.faultCause := rfl
@[simp] theorem State.tick_faultPc : (s.tick).faultPc = s.faultPc := rfl
@[simp] theorem State.tick_faultInfo : (s.tick).faultInfo = s.faultInfo := rfl
@[simp] theorem State.tick_quirky : (s.tick).quirky = s.quirky := rfl
@[simp] theorem State.tick_keypad : (s.tick).keypad = s.keypad := rfl
@[simp] theorem State.tick_params : (s.tick).params = s.params := rfl
@[simp] theorem State.tick_draws : (s.tick).draws = s.draws := rfl
@[simp] theorem State.tick_reg (r : Reg) : (s.tick).reg r = s.reg r := rfl
@[simp] theorem State.tick_readByte (k : Nat) : (s.tick).readByte k = s.readByte k := rfl
@[simp] theorem State.tick_stackAt (k : Nat) : (s.tick).stackAt k = s.stackAt k := rfl
@[simp] theorem State.tick_dataAddr (k : Nat) : (s.tick).dataAddr k = s.dataAddr k := rfl
@[simp] theorem State.tick_keyDown (k : Nat) : (s.tick).keyDown k = s.keyDown k := rfl
@[simp] theorem State.tick_halted : (s.tick).halted = s.halted := rfl

/-! ### `State.writeByte` -/

@[simp] theorem State.writeByte_v (a : Nat) (b : Byte) : (s.writeByte a b).v = s.v := rfl
@[simp] theorem State.writeByte_pc (a : Nat) (b : Byte) : (s.writeByte a b).pc = s.pc := rfl
@[simp] theorem State.writeByte_i (a : Nat) (b : Byte) : (s.writeByte a b).i = s.i := rfl
@[simp] theorem State.writeByte_sp (a : Nat) (b : Byte) : (s.writeByte a b).sp = s.sp := rfl
@[simp] theorem State.writeByte_stack (a : Nat) (b : Byte) : (s.writeByte a b).stack = s.stack := rfl
@[simp] theorem State.writeByte_dt (a : Nat) (b : Byte) : (s.writeByte a b).dt = s.dt := rfl
@[simp] theorem State.writeByte_st (a : Nat) (b : Byte) : (s.writeByte a b).st = s.st := rfl
@[simp] theorem State.writeByte_mem (a : Nat) (b : Byte) : (s.writeByte a b).mem = Memory.write s.params s.mem a b := rfl
@[simp] theorem State.writeByte_fb (a : Nat) (b : Byte) : (s.writeByte a b).fb = s.fb := rfl
@[simp] theorem State.writeByte_draw (a : Nat) (b : Byte) : (s.writeByte a b).draw = s.draw := rfl
@[simp] theorem State.writeByte_beep (a : Nat) (b : Byte) : (s.writeByte a b).beep = s.beep := rfl
@[simp] theorem State.writeByte_unknown (a : Nat) (b : Byte) : (s.writeByte a b).unknown = s.unknown := rfl
@[simp] theorem State.writeByte_unknownWord (a : Nat) (b : Byte) : (s.writeByte a b).unknownWord = s.unknownWord := rfl
@[simp] theorem State.writeByte_faultCause (a : Nat) (b : Byte) : (s.writeByte a b).faultCause = s.faultCause := rfl
@[simp] theorem State.writeByte_faultPc (a : Nat) (b : Byte) : (s.writeByte a b).faultPc = s.faultPc := rfl
@[simp] theorem State.writeByte_faultInfo (a : Nat) (b : Byte) : (s.writeByte a b).faultInfo = s.faultInfo := rfl
@[simp] theorem State.writeByte_quirky (a : Nat) (b : Byte) : (s.writeByte a b).quirky = s.quirky := rfl
@[simp] theorem State.writeByte_keypad (a : Nat) (b : Byte) : (s.writeByte a b).keypad = s.keypad := rfl
@[simp] theorem State.writeByte_params (a : Nat) (b : Byte) : (s.writeByte a b).params = s.params := rfl
@[simp] theorem State.writeByte_draws (a : Nat) (b : Byte) : (s.writeByte a b).draws = s.draws := rfl
@[simp] theorem State.writeByte_reg (a : Nat) (b : Byte) (r : Reg) : (s.writeByte a b).reg r = s.reg r := rfl
@[simp] theorem State.writeByte_stackAt (a : Nat) (b : Byte) (k : Nat) : (s.writeByte a b).stackAt k = s.stackAt k := rfl
@[simp] theorem State.writeByte_dataAddr (a : Nat) (b : Byte) (k : Nat) : (s.writeByte a b).dataAddr k = s.dataAddr k := rfl
@[simp] theorem State.writeByte_keyDown (a : Nat) (b : Byte) (k : Nat) : (s.writeByte a b).keyDown k = s.keyDown k := rfl
@[simp] theorem State.writeByte_halted (a : Nat) (b : Byte) : (s.writeByte a b).halted = s.halted := rfl

end Sys2Proof.Machine
end

