-- ==== Sys2Proof/Laws/Ops.lean ====
section
/-! SUPPORT. For each shared operation one lemma that says what it does: registers, stack, fault entry, fetch, timers, the
loops of Fx55 and Fx65, and the key scan. -/

namespace Sys2Proof.Machine

/-! ## Registers -/

/-- What a register write does, to every register. -/
theorem State.reg_setReg (s : State) (x r : Reg) (b : Byte) :
    (s.setReg x b).reg r = if r = x then b else s.reg r := by
  simp only [State.reg, State.setReg, Vector.getElem_set, BitVec.toNat_inj]
  simp only [eq_comm]

@[simp] theorem State.reg_setReg_self (s : State) (x : Reg) (b : Byte) : (s.setReg x b).reg x = b := by
  rw [State.reg_setReg, if_pos rfl]

theorem State.reg_setReg_ne (s : State) {x r : Reg} (h : r ≠ x) (b : Byte) : (s.setReg x b).reg r = s.reg r := by
  rw [State.reg_setReg, if_neg h]

/-- Two register files that read alike are equal. -/
theorem State.v_ext {s t : State} (h : ∀ r, t.reg r = s.reg r) : t.v = s.v := by
  refine Vector.ext fun k hk => ?_
  have := h (BitVec.ofNat 4 k)
  simpa only [State.reg, BitVec.toNat_ofNat, Nat.mod_eq_of_lt hk] using this

@[simp] theorem State.setFlag_eq (s : State) (b : Bool) : s.setFlag b = s.setReg regF (flagByte b) := rfl

/-! ## The call stack -/

/-- What a push does, to every entry (R92). -/
theorem State.stackAt_push (s : State) (w : Word) (k : Nat) :
    (s.push w).stackAt k = if k = s.sp.toNat ∧ s.sp.toNat < 16 then w else s.stackAt k := by
  simp only [State.stackAt, State.push, Vector.getElem?_setIfInBounds]
  by_cases h : s.sp.toNat = k
  · subst h
    by_cases h' : s.sp.toNat < 16 <;> simp [h']
  · rw [if_neg h, if_neg (fun hh => h hh.1.symm)]

/-! ## Faults -/

theorem FaultCause.code_ne_zero (c : FaultCause) : c.code ≠ 0 := by cases c <;> decide

theorem FaultCause.code_le (c : FaultCause) : c.code.toNat ≤ 5 := by cases c <;> decide

/-- Entering a fault halts the block (R153). -/
@[simp] theorem State.halted_raise (s : State) (c : FaultCause) (w : Word) : (s.raise c w).halted = true := by
  exact bne_iff_ne.mpr c.code_ne_zero

/-! ## Fetch and timers -/

/-- The fetch answers a word exactly when both its cells exist (R81). -/
theorem State.fetch_eq_some {s : State} {w : Word} :
    s.fetch = some w ↔
      s.pc.toNat ≤ 4094 ∧ wordOfBytes (s.readByte s.pc.toNat) (s.readByte (s.pc.toNat + 1)) = w := by
  unfold State.fetch
  split
  · simp_all
  · constructor
    · intro h; cases h
    · intro h; omega

theorem State.fetch_eq_none {s : State} : s.fetch = none ↔ 4094 < s.pc.toNat := by
  unfold State.fetch
  split <;> simp_all

/-- A timer counts down by one and never below zero (R86). -/
theorem countDown_toNat (t : Byte) : (countDown t).toNat = t.toNat - 1 := by
  unfold countDown
  split
  · simp_all
  · rename_i h
    have h0 : t.toNat ≠ 0 := fun e => h (BitVec.eq_of_toNat_eq e)
    have := t.isLt
    rw [BitVec.toNat_sub]
    simp
    omega

theorem endStep_next (t : State) : endStep (.next t) = .next (if t.halted then t else t.tick) := rfl

/-! ## The loops of Fx55 and Fx65 -/

/-- A loop of stores changes `mem` only. -/
theorem State.storeFirst_eq (s : State) (k : Nat) : s.storeFirst k = { s with mem := (s.storeFirst k).mem } := by
  induction k with
  | zero => rfl
  | succ k ih => rw [State.storeFirst, State.writeByte, ih]

theorem State.storeFirst_wf {s : State} (h : Memory.wf s.params s.mem = true) (k : Nat) :
    Memory.wf (s.storeFirst k).params (s.storeFirst k).mem = true := by
  induction k with
  | zero => exact h
  | succ k ih => exact State.writeByte_wf ih _ _

theorem State.storeFirst_params (s : State) (k : Nat) : (s.storeFirst k).params = s.params := by
  rw [State.storeFirst_eq]

/-- What the loop of Fx55 stores, to every address (R119). -/
theorem State.readByte_storeFirst {s : State} (h : Memory.wf s.params s.mem = true) (k a : Nat)
    (hk : s.i.toNat + k ≤ 4096) :
    (s.storeFirst k).readByte a =
      if s.i.toNat ≤ a ∧ a < s.i.toNat + k then s.reg (BitVec.ofNat 4 (a - s.i.toNat)) else s.readByte a := by
  induction k with
  | zero => rw [if_neg (by omega)]; rfl
  | succ k ih =>
    have e : s.dataAddr k = s.i.toNat + k := rfl
    rw [State.storeFirst, State.readByte_writeByte (State.storeFirst_wf h k), ih (by omega)]
    split
    · rename_i hw
      rw [if_pos ⟨by omega, by omega⟩, show a - s.i.toNat = k by omega]
    · rename_i hw
      split
      · rw [if_pos ⟨by omega, by omega⟩]
      · rw [if_neg (by omega)]

/-- A loop of loads changes `v` only. -/
theorem State.loadFirst_eq (s : State) (k : Nat) : s.loadFirst k = { s with v := (s.loadFirst k).v } := by
  induction k with
  | zero => rfl
  | succ k ih => rw [State.loadFirst, State.setReg, ih]

/-- What the loop of Fx65 loads, to every register (R120). -/
theorem State.reg_loadFirst (s : State) (k : Nat) (hk : k ≤ 16) (r : Reg) :
    (s.loadFirst k).reg r = if r.toNat < k then s.readByte (s.dataAddr r.toNat) else s.reg r := by
  induction k with
  | zero => rw [if_neg (by omega)]; rfl
  | succ k ih =>
    rw [State.loadFirst, State.reg_setReg, ih (by omega)]
    have e : r = BitVec.ofNat 4 k ↔ r.toNat = k := by
      rw [← BitVec.toNat_inj, BitVec.toNat_ofNat, Nat.mod_eq_of_lt (by omega)]
    by_cases hr : r.toNat = k
    · rw [if_pos (e.mpr hr), if_pos (by omega), hr]
    · rw [if_neg (fun h => hr (e.mp h))]
      by_cases hl : r.toNat < k
      · rw [if_pos hl, if_pos (by omega)]
      · rw [if_neg hl, if_neg (by omega)]

/-- What Fx33 stores, to every address (R118). -/
theorem State.readByte_storeDigits {s : State} (h : Memory.wf s.params s.mem = true) (b : Byte) (a : Nat)
    (hi : s.i.toNat + 2 ≤ 4095) :
    (s.storeDigits b).readByte a =
      if a = s.i.toNat then hundreds b else if a = s.i.toNat + 1 then tens b
      else if a = s.i.toNat + 2 then ones b else s.readByte a := by
  unfold State.storeDigits
  rw [State.readByte_writeByte (State.writeByte_wf (State.writeByte_wf h _ _) _ _),
    State.readByte_writeByte (State.writeByte_wf h _ _), State.readByte_writeByte h]
  have e0 : s.dataAddr 0 = s.i.toNat := rfl
  have e1 : s.dataAddr 1 = s.i.toNat + 1 := rfl
  have e2 : s.dataAddr 2 = s.i.toNat + 2 := rfl
  repeat' split
  all_goals first | rfl | omega

theorem State.storeDigits_wf {s : State} (h : Memory.wf s.params s.mem = true) (b : Byte) :
    Memory.wf (s.storeDigits b).params (s.storeDigits b).mem = true :=
  State.writeByte_wf (State.writeByte_wf (State.writeByte_wf h _ _) _ _) _ _

/-! ## The range test -/

/-- The range test of R51. -/
theorem State.cellsExist_iff (s : State) (n : Nat) :
    s.cellsExist n = true ↔ n = 0 ∨ s.i.toNat + n - 1 ≤ 4095 := by
  simp [State.cellsExist]

/-! ## The key scan -/

theorem lowest_none {k : Keypad} {n : Nat} (h : lowestBelow k n = none) : ∀ i < n, k.getLsbD i = false := by
  induction n with
  | zero => intro i hi; omega
  | succ n ih =>
    unfold lowestBelow at h
    cases hs : lowestBelow k n with
    | some m => rw [hs] at h; cases h
    | none =>
      rw [hs] at h
      simp only at h
      split at h
      · cases h
      · rename_i hk
        intro i hi
        rcases Nat.lt_or_ge i n with hlt | hge
        · exact ih hs i hlt
        · rw [show i = n by omega]
          exact Bool.eq_false_iff.mpr hk

theorem lowest_spec {k : Keypad} {n j : Nat} (h : lowestBelow k n = some j) :
    j < n ∧ k.getLsbD j = true ∧ ∀ i < j, k.getLsbD i = false := by
  induction n with
  | zero => cases h
  | succ n ih =>
    unfold lowestBelow at h
    cases hs : lowestBelow k n with
    | some m =>
      rw [hs] at h ih
      cases h
      obtain ⟨h1, h2⟩ := ih rfl
      exact ⟨by omega, h2⟩
    | none =>
      rw [hs] at h
      simp only at h
      split at h
      · rename_i hk
        cases h
        exact ⟨by omega, hk, lowest_none hs⟩
      · cases h

/-- The scan answers the least key that is down (R137). -/
theorem lowestBelow_eq_some {k : Keypad} {n j : Nat} :
    lowestBelow k n = some j ↔ j < n ∧ k.getLsbD j = true ∧ ∀ i < j, k.getLsbD i = false := by
  induction n with
  | zero => simp [lowestBelow]
  | succ n ih =>
    unfold lowestBelow
    cases hs : lowestBelow k n with
    | some m =>
      rw [hs] at ih
      rw [ih]
      constructor
      · rintro ⟨h1, h2, h3⟩
        exact ⟨by omega, h2, h3⟩
      · rintro ⟨h1, h2, h3⟩
        refine ⟨?_, h2, h3⟩
        obtain ⟨m1, m2, _⟩ := lowest_spec hs
        rcases Nat.lt_or_ge j n with h | h
        · exact h
        · rw [h3 m (by omega)] at m2
          cases m2
    | none =>
      have hn := lowest_none hs
      simp only
      split
      · rename_i hk
        constructor
        · intro h
          cases h
          exact ⟨by omega, hk, hn⟩
        · rintro ⟨h1, h2, h3⟩
          rcases Nat.lt_trichotomy j n with h | h | h
          · rw [hn j h] at h2; cases h2
          · rw [h]
          · omega
      · rename_i hk
        constructor
        · intro h; cases h
        · rintro ⟨h1, h2, h3⟩
          rcases Nat.lt_trichotomy j n with h | h | h
          · rw [hn j h] at h2; cases h2
          · exact absurd (h ▸ h2) hk
          · omega

/-- Without a key down in the scanned range the scan answers none. -/
theorem lowestBelow_eq_none {k : Keypad} {n : Nat} : lowestBelow k n = none ↔ ∀ i < n, k.getLsbD i = false := by
  constructor
  · exact lowest_none
  · intro h
    cases hs : lowestBelow k n with
    | none => rfl
    | some m =>
      obtain ⟨m1, m2, _⟩ := lowest_spec hs
      rw [h m m1] at m2
      cases m2

/-- Fx0A loads the least key that is down (R137, conflict C5). -/
theorem State.lowestKey_eq_some {s : State} {k : Nat} :
    s.lowestKey = some k ↔ k < 16 ∧ s.keypad.getLsbD k = true ∧ ∀ j < k, s.keypad.getLsbD j = false := by
  unfold State.lowestKey
  exact lowestBelow_eq_some

/-- Fx0A waits exactly when no key is down (R137). -/
theorem State.lowestKey_eq_none {s : State} : s.lowestKey = none ↔ ∀ j < 16, s.keypad.getLsbD j = false := by
  unfold State.lowestKey
  exact lowestBelow_eq_none

end Sys2Proof.Machine
end

