-- ==== Sys2Proof/Laws/Display.lean ====
section
/-! SUPPORT. What drawing a sprite does to every pixel and to the collision flag (R126, R128): the loops of the raster
against the set of cells they touch. -/

namespace Sys2Proof.Machine

/-- Two sprite pixels never fall on one cell: a sprite is at most 8 columns and 32 rows (R126: "each pixel of the
rectangle is visited at most once"). -/
theorem pixelCell_inj {e : SpriteEdge} {x0 y0 col row col' row' q : Nat} (hc : col < 8) (hc' : col' < 8) (hr : row < 32) (hr' : row' < 32)
    (h : pixelCell e (x0 + col) (y0 + row) = some q) (h' : pixelCell e (x0 + col') (y0 + row') = some q) :
    col = col' ∧ row = row' := by
  cases e <;> simp only [pixelCell] at h h'
  case wrap =>
    simp only [Option.some.injEq] at h h'
    omega
  all_goals
    split at h
    · split at h'
      · simp only [Option.some.injEq] at h h'
        omega
      · cases h'
    · cases h

/-- A cell that a sprite pixel falls on is one of the 2048 (R57). -/
theorem pixelCell_lt {e : SpriteEdge} {c r q : Nat} (h : pixelCell e c r = some q) : q < 2048 := by
  cases e <;> simp only [pixelCell] at h
  case wrap =>
    simp only [Option.some.injEq] at h
    omega
  all_goals
    split at h
    · simp only [Option.some.injEq] at h
      omega
    · cases h

/-- A cleared framebuffer has every cell off. -/
@[simp] theorem cellOn_clear (q : Nat) : cellOn (Vector.replicate 32 0#64) q = false := by
  unfold cellOn
  by_cases h : q / 64 < 32
  · rw [Vector.getElem?_eq_getElem h]
    simp
  · rw [Vector.getElem?_eq_none (by omega)]
    simp

/-- Two framebuffers with the same 2048 cells are equal. -/
theorem framebuffer_ext {f g : Framebuffer} (h : ∀ q < 2048, cellOn f q = cellOn g q) : f = g := by
  refine Vector.ext fun r hr => BitVec.eq_of_getLsbD_eq fun c hc => ?_
  have := h (r * 64 + c) (by omega)
  unfold cellOn at this
  rw [show (r * 64 + c) / 64 = r by omega, show (r * 64 + c) % 64 = c by omega] at this
  rwa [Vector.getElem?_eq_getElem hr, Vector.getElem?_eq_getElem hr] at this

/-- Flipping a cell changes it and leaves every other cell alone. -/
theorem cellOn_flipCell (f : Framebuffer) {cell q : Nat} (hcell : cell < 2048) :
    cellOn (flipCell f cell) q = if q = cell then !cellOn f q else cellOn f q := by
  have hrow : cell / 64 < 32 := by omega
  simp only [cellOn, flipCell, Vector.getElem?_setIfInBounds]
  by_cases hr : cell / 64 = q / 64
  · rw [if_pos hr, if_pos hrow, Option.getD_some, BitVec.getLsbD_xor, BitVec.getLsbD_twoPow, hr]
    by_cases h : q = cell
    · rw [if_pos h, h]
      simp [show cell % 64 < 64 by omega]
    · rw [if_neg h, show decide (cell % 64 = q % 64) = false from decide_eq_false (by omega)]
      simp
  · rw [if_neg hr, if_neg (fun h => hr (by rw [h]))]

/-- Toggling a cell flips it and leaves every other cell alone. -/
theorem Raster.toggle_fb (g : Raster) {cell q : Nat} (hcell : cell < 2048) :
    cellOn (g.toggle cell).fb q = if q = cell then !cellOn g.fb q else cellOn g.fb q :=
  cellOn_flipCell g.fb hcell

/-- Column `col` of the row with byte `b` has its bit set and falls on cell `q`. -/
def touchesAt (e : SpriteEdge) (b : Byte) (x0 r col q : Nat) : Prop :=
  b.getLsbD (7 - col) = true ∧ pixelCell e (x0 + col) r = some q

theorem Raster.plot_fb_pos {g : Raster} {e : SpriteEdge} {b : Byte} {x0 r col q : Nat} (h : touchesAt e b x0 r col q) :
    cellOn (g.plot e (b.getLsbD (7 - col)) (x0 + col) r).fb q = !cellOn g.fb q := by
  rw [Raster.plot, h.1, if_pos rfl, h.2]
  simp only
  rw [Raster.toggle_fb g (pixelCell_lt h.2), if_pos rfl]

theorem Raster.plot_fb_neg {g : Raster} {e : SpriteEdge} {b : Byte} {x0 r col q : Nat} (h : ¬ touchesAt e b x0 r col q) :
    cellOn (g.plot e (b.getLsbD (7 - col)) (x0 + col) r).fb q = cellOn g.fb q := by
  rw [Raster.plot]
  split
  · rename_i hb
    cases hp : pixelCell e (x0 + col) r with
    | none => rfl
    | some q' =>
      simp only
      rw [Raster.toggle_fb g (pixelCell_lt hp), if_neg]
      intro hq
      exact h ⟨hb, hq ▸ hp⟩
  · rfl

theorem Raster.plot_hit {g : Raster} {e : SpriteEdge} {b : Byte} {x0 r col : Nat} :
    (g.plot e (b.getLsbD (7 - col)) (x0 + col) r).hit = true ↔
      g.hit = true ∨ ∃ q, touchesAt e b x0 r col q ∧ cellOn g.fb q = true := by
  rw [Raster.plot]
  split
  · rename_i hb
    cases hp : pixelCell e (x0 + col) r with
    | none => simp [touchesAt, hp]
    | some q => simp [touchesAt, hp, hb, Raster.toggle]
  · rename_i hb
    simp [touchesAt, hb]

section Row

variable {g : Raster} {e : SpriteEdge} {b : Byte} {x0 y0 row : Nat}

/-- The columns drawn so far: a cell one of them touches is flipped, every other is unchanged. -/
theorem Raster.plotCols_fb (hr : row < 32) {k : Nat} (hk : k ≤ 8) (q : Nat) :
    ((∃ col < k, touchesAt e b x0 (y0 + row) col q) →
      cellOn (g.plotCols e b x0 (y0 + row) k).fb q = !cellOn g.fb q) ∧
    ((¬ ∃ col < k, touchesAt e b x0 (y0 + row) col q) →
      cellOn (g.plotCols e b x0 (y0 + row) k).fb q = cellOn g.fb q) := by
  induction k with
  | zero => exact ⟨fun ⟨_, h, _⟩ => absurd h (by omega), fun _ => rfl⟩
  | succ k ih =>
    obtain ⟨ih1, ih2⟩ := ih (by omega)
    rw [Raster.plotCols]
    by_cases ht : touchesAt e b x0 (y0 + row) k q
    · have hno : ¬ ∃ col < k, touchesAt e b x0 (y0 + row) col q := by
        rintro ⟨col, hcol, hc⟩
        have := pixelCell_inj (by omega) (by omega) hr hr hc.2 ht.2
        omega
      rw [Raster.plot_fb_pos ht, ih2 hno]
      exact ⟨fun _ => rfl, fun h => absurd ⟨k, by omega, ht⟩ h⟩
    · rw [Raster.plot_fb_neg ht]
      constructor
      · rintro ⟨col, hcol, hc⟩
        refine ih1 ⟨col, ?_, hc⟩
        rcases Nat.lt_or_ge col k with h | h
        · exact h
        · rw [show col = k by omega] at hc
          exact absurd hc ht
      · intro h
        exact ih2 fun ⟨col, hcol, hc⟩ => h ⟨col, by omega, hc⟩

/-- The columns drawn so far collide exactly when one of them touches a cell that was enabled before the row. -/
theorem Raster.plotCols_hit (hr : row < 32) {k : Nat} (hk : k ≤ 8) :
    (g.plotCols e b x0 (y0 + row) k).hit = true ↔
      g.hit = true ∨ ∃ col < k, ∃ q, touchesAt e b x0 (y0 + row) col q ∧ cellOn g.fb q = true := by
  induction k with
  | zero =>
    constructor
    · exact .inl
    · rintro (h | ⟨_, h, _⟩)
      · exact h
      · omega
  | succ k ih =>
    rw [Raster.plotCols, Raster.plot_hit, ih (by omega)]
    have same : ∀ q, touchesAt e b x0 (y0 + row) k q →
        cellOn (g.plotCols e b x0 (y0 + row) k).fb q = cellOn g.fb q := by
      intro q ht
      refine (Raster.plotCols_fb hr (by omega) q).2 ?_
      rintro ⟨col, hcol, hc⟩
      have := pixelCell_inj (by omega) (by omega) hr hr hc.2 ht.2
      omega
    constructor
    · rintro ((h | ⟨col, hcol, h⟩) | ⟨q, hq, hf⟩)
      · exact .inl h
      · exact .inr ⟨col, by omega, h⟩
      · exact .inr ⟨k, by omega, q, hq, same q hq ▸ hf⟩
    · rintro (h | ⟨col, hcol, q, hq, hf⟩)
      · exact .inl (.inl h)
      · rcases Nat.lt_or_ge col k with h | h
        · exact .inl (.inr ⟨col, h, q, hq, hf⟩)
        · have hck : col = k := by omega
          subst hck
          exact .inr ⟨q, hq, (same q hq).trans hf⟩

end Row

/-- Row `row`, column `col` of the sprite has its bit set and falls on cell `q` (R126, R128). -/
def State.touches (s : State) (x0 y0 row col q : Nat) : Prop :=
  touchesAt s.params.edge (s.readByte (s.dataAddr row)) x0 (y0 + row) col q

/-- Drawing flips exactly the cells the sprite's set bits fall on (R126, R130). -/
theorem State.plotRows_fb {s : State} {x0 y0 : Nat} {n : Nat} (hn : n ≤ 32) (q : Nat) :
    ((∃ row < n, ∃ col < 8, s.touches x0 y0 row col q) → cellOn (s.plotRows x0 y0 n).fb q = !cellOn s.fb q) ∧
    ((¬ ∃ row < n, ∃ col < 8, s.touches x0 y0 row col q) → cellOn (s.plotRows x0 y0 n).fb q = cellOn s.fb q) := by
  induction n with
  | zero => exact ⟨fun ⟨_, h, _⟩ => absurd h (by omega), fun _ => rfl⟩
  | succ n ih =>
    obtain ⟨ih1, ih2⟩ := ih (by omega)
    rw [State.plotRows]
    have row := Raster.plotCols_fb (g := s.plotRows x0 y0 n) (e := s.params.edge)
      (b := s.readByte (s.dataAddr n)) (x0 := x0) (y0 := y0) (row := n) (by omega) (Nat.le_refl 8) q
    by_cases ht : ∃ col < 8, s.touches x0 y0 n col q
    · have hno : ¬ ∃ row < n, ∃ col < 8, s.touches x0 y0 row col q := by
        rintro ⟨r, hr, col, hcol, hc⟩
        obtain ⟨col', hcol', hc'⟩ := ht
        have := pixelCell_inj hcol hcol' (by omega) (by omega) hc.2 hc'.2
        omega
      rw [row.1 ht, ih2 hno]
      exact ⟨fun _ => rfl, fun h => absurd ⟨n, by omega, ht⟩ h⟩
    · rw [row.2 ht]
      constructor
      · rintro ⟨r, hr, hc⟩
        refine ih1 ⟨r, ?_, hc⟩
        rcases Nat.lt_or_ge r n with h | h
        · exact h
        · rw [show r = n by omega] at hc
          exact absurd hc ht
      · intro h
        exact ih2 fun ⟨r, hr, hc⟩ => h ⟨r, by omega, hc⟩

/-- The collision flag is set exactly when a set bit falls on a cell that was enabled before the draw (R130). -/
theorem State.plotRows_hit {s : State} {x0 y0 : Nat} {n : Nat} (hn : n ≤ 32) :
    (s.plotRows x0 y0 n).hit = true ↔
      ∃ row < n, ∃ col < 8, ∃ q, s.touches x0 y0 row col q ∧ cellOn s.fb q = true := by
  induction n with
  | zero =>
    constructor
    · intro h; cases h
    · rintro ⟨_, h, _⟩; omega
  | succ n ih =>
    rw [State.plotRows, Raster.plotCols_hit (by omega) (Nat.le_refl 8), ih (by omega)]
    have same : ∀ col < 8, ∀ q, s.touches x0 y0 n col q →
        cellOn (s.plotRows x0 y0 n).fb q = cellOn s.fb q := by
      intro col hcol q ht
      refine (State.plotRows_fb (by omega) q).2 ?_
      rintro ⟨r, hr, col', hcol', hc⟩
      have := pixelCell_inj hcol' hcol (by omega) (by omega) hc.2 ht.2
      omega
    constructor
    · rintro (⟨r, hr, h⟩ | ⟨col, hcol, q, hq, hf⟩)
      · exact ⟨r, by omega, h⟩
      · exact ⟨n, by omega, col, hcol, q, hq, same col hcol q hq ▸ hf⟩
    · rintro ⟨r, hr, col, hcol, q, hq, hf⟩
      rcases Nat.lt_or_ge r n with h | h
      · exact .inl ⟨r, h, col, hcol, q, hq, hf⟩
      · have hrn : r = n := by omega
        subst hrn
        exact .inr ⟨col, hcol, q, hq, (same col hcol q hq).trans hf⟩


end Sys2Proof.Machine
end

