-- ==== Sys2Proof/Laws/Frames.lean ====
section
/-! SUPPORT. The words of the encoder as numbers, and the frame of each shape of instruction: register only, skip or jump,
and entering a fault. -/

namespace Sys2Proof

/-! ## Words as numbers -/

theorem formatA_toNat (op : BitVec 4) (nnn : Addr12) :
    (formatA op nnn).toNat = op.toNat * 4096 + nnn.toNat := by
  refine (BitVec.toNat_append op nnn).trans ?_
  rw [← Nat.shiftLeft_add_eq_or_of_lt nnn.isLt, Nat.shiftLeft_eq]

theorem formatK_toNat (op : BitVec 4) (x : Reg) (kk : Byte) :
    (formatK op x kk).toNat = op.toNat * 4096 + 256 * x.toNat + kk.toNat := by
  refine (BitVec.toNat_append (op ++ x) kk).trans ?_
  rw [← Nat.shiftLeft_add_eq_or_of_lt kk.isLt, Nat.shiftLeft_eq, BitVec.toNat_append,
    ← Nat.shiftLeft_add_eq_or_of_lt x.isLt, Nat.shiftLeft_eq]
  omega

theorem formatR_toNat (op : BitVec 4) (x y : Reg) (n : BitVec 4) :
    (formatR op x y n).toNat = op.toNat * 4096 + 256 * x.toNat + 16 * y.toNat + n.toNat := by
  refine (BitVec.toNat_append (op ++ x ++ y) n).trans ?_
  rw [← Nat.shiftLeft_add_eq_or_of_lt n.isLt, Nat.shiftLeft_eq, BitVec.toNat_append,
    ← Nat.shiftLeft_add_eq_or_of_lt y.isLt, Nat.shiftLeft_eq, BitVec.toNat_append,
    ← Nat.shiftLeft_add_eq_or_of_lt x.isLt, Nat.shiftLeft_eq]
  omega

namespace Machine

/-! ## Unchanged pieces -/

/-- Pieces that two steps in a row leave alone. -/
theorem SameBut.trans {changed : List Part} {s t u : State} (h : SameBut changed s t) (h' : SameBut changed t u) :
    SameBut changed s u := by
  intro p hp
  have a := h p hp
  have b := h' p hp
  cases p
  case regs | stack | mem => exact fun k => (b k).trans (a k)
  case fb => exact fun c r => (b c r).trans (a c r)
  case fault => exact ⟨b.1.trans a.1, b.2.1.trans a.2.1, b.2.2.trans a.2.2⟩
  all_goals exact Eq.trans b a

/-- A frame that names fewer changed pieces says more. -/
theorem SameBut.mono {few many : List Part} {s t : State} (h : SameBut few s t) (hsub : ∀ p ∈ few, p ∈ many) :
    SameBut many s t := fun p hp => h p fun hf => hp (hsub p hf)

/-! ## The shapes of instructions -/

/-- The advance of R82, on numbers. -/
theorem State.pc_advance_toNat (s : State) : s.advance.pc.toNat = (s.pc.toNat + 2) % 65536 := BitVec.toNat_add s.pc 2

theorem State.advanced (s : State) : Advanced s s.advance := ⟨s.pc_advance_toNat, rfl, rfl⟩

/-- A jump moves `pc` and nothing else (R91, R97). -/
theorem onlyPc_setPc (s : State) (w : Word) : OnlyPc s (s.advance.setPc w) := by
  refine ⟨rfl, rfl, fun p hp => ?_⟩
  cases p <;> first | exact absurd (by decide) hp | rfl | exact fun _ => rfl | exact fun _ _ => rfl | exact ⟨rfl, rfl, rfl⟩

/-- A skip moves `pc` and nothing else (R98). -/
theorem onlyPc_skipIf (s : State) (c : Bool) : OnlyPc s (s.advance.skipIf c) := onlyPc_setPc s _

/-- Where a skip goes (R98). -/
theorem State.pc_skipIf_toNat (s : State) (c : Bool) :
    (s.advance.skipIf c).pc.toNat = (s.pc.toNat + if c then 4 else 2) % 65536 := by
  have h := s.pc_advance_toNat
  cases c
  · exact h
  · have h2 : (s.advance.skipIf true).pc.toNat = (s.advance.pc.toNat + 2) % 65536 := BitVec.toNat_add _ 2
    rw [h2, h, Nat.mod_add_mod, Nat.add_assoc]
    rfl

/-- A write of any registers after the advance changes nothing else. -/
theorem sameBut_v (s : State) (v : Vector Byte 16) :
    SameBut [.regs, .pc, .draw, .unknown] s { s.advance with v := v } := by
  intro p hp
  cases p <;> first | exact absurd (by decide) hp | rfl | exact fun _ => rfl | exact fun _ _ => rfl | exact ⟨rfl, rfl, rfl⟩

/-- One register written. -/
theorem onlyRegs_setReg (s : State) (x : Reg) (b : Byte) : OnlyRegs [x] s (s.advance.setReg x b) := by
  refine ⟨fun r hr => ?_, s.advanced, sameBut_v s _⟩
  rw [State.reg_setReg_ne _ (by simpa using hr)]
  rfl

/-- A register, then VF: 8xy4 (R106, R113). -/
theorem onlyRegs_setReg_setFlag (s : State) (x : Reg) (b : Byte) (f : Bool) :
    OnlyRegs [x, regF] s ((s.advance.setReg x b).setFlag f) := by
  refine ⟨fun r hr => ?_, s.advanced, sameBut_v s _⟩
  have hr' : r ≠ x ∧ r ≠ regF := by simpa using hr
  rw [State.setFlag_eq, State.reg_setReg_ne _ hr'.2, State.reg_setReg_ne _ hr'.1]
  rfl

/-- VF, then a register: the subtractions and the shifts (R107 to R110, R113). -/
theorem onlyRegs_setFlag_setReg (s : State) (x : Reg) (b : Byte) (f : Bool) :
    OnlyRegs [x, regF] s ((s.advance.setFlag f).setReg x b) := by
  refine ⟨fun r hr => ?_, s.advanced, sameBut_v s _⟩
  have hr' : r ≠ x ∧ r ≠ regF := by simpa using hr
  rw [State.setFlag_eq, State.reg_setReg_ne _ hr'.1, State.reg_setReg_ne _ hr'.2]
  rfl

/-- Entering a fault writes the record and the outputs (R152). -/
theorem faulted_raise (s : State) (c : FaultCause) (info : Word) : Faulted c.code.toNat info s (s.raise c info) := by
  refine ⟨rfl, rfl, rfl, rfl, rfl, rfl, fun p hp => ?_⟩
  cases p <;> first | exact absurd (by decide) hp | rfl | exact fun _ => rfl | exact fun _ _ => rfl

/-- A state with such a record is halted. -/
theorem Faulted.halted {code : Nat} {info : Word} {s t : State} (h : Faulted code info s t) (hc : code ≠ 0) :
    t.halted = true := by
  rw [State.halted, bne_iff_ne]
  intro e
  apply hc
  rw [← h.1, e]
  rfl

/-! ## Operands -/

theorem flagByte_toNat (b : Bool) : (flagByte b).toNat = if b then 1 else 0 := by cases b <;> rfl

/-- A sprite pixel falls on the cell of a pixel of the grid exactly when it lands there (R126, R128). -/
theorem pixelCell_eq_some_iff {e : SpriteEdge} {x0 y0 row col c r : Nat} (hc : c < 64) (hr : r < 32) :
    pixelCell e (x0 + col) (y0 + row) = some (r * 64 + c) ↔ Lands e x0 y0 row col c r := by
  cases e <;> simp only [pixelCell, Lands]
  case wrap => simp only [Option.some.injEq]; omega
  all_goals
    split
    · simp only [Option.some.injEq]; omega
    · constructor
      · intro h; cases h
      · intro h; omega

/-- The test that refuses a sprite under `fail` (R128). -/
theorem refusedSprite_iff (s : State) (x y : Reg) (n : Nat) :
    RefusedSprite s x y n ↔ s.params.edge = .fail ∧ s.overhangs x y n = true := by
  simp [RefusedSprite, State.overhangs, State.originX, State.originY]

end Machine

end Sys2Proof
end

