-- ==== Sys2Proof/Laws/PerInstr.lean ====
section
/-! SUPPORT. Per instruction: the word the encoder writes satisfies the mask and match of the instruction's own row of the
opcode table, and that row stands in the table (R63). -/

namespace Sys2Proof.Laws.RowOfEncoding

/-- The encoding satisfies the row, and the row is one of the 34. -/
def Statement (i : Instr) : Prop := i.row.covers (encode i) = true ∧ i.row ∈ opcodeTable

/-- A word of format A masked to its first digit. -/
theorem maskA (op : BitVec 4) (nnn : Addr12) : formatA op nnn &&& 0xF000 = formatA op 0 := by
  ext i hi
  rw [BitVec.getElem_and, ← BitVec.getLsbD_eq_getElem, ← BitVec.getLsbD_eq_getElem, ← BitVec.getLsbD_eq_getElem,
    bits_formatA, bits_formatA]
  have : ∀ j : Fin 16, (0xF000 : Word).getLsbD j = decide (12 ≤ j.val) := by decide
  have hm := this ⟨i, hi⟩
  simp only at hm
  rw [hm]
  split <;> simp_all

/-- A word of format K masked to its first digit. -/
theorem maskK (op : BitVec 4) (x : Reg) (kk : Byte) : formatK op x kk &&& 0xF000 = formatK op 0 0 := by
  ext i hi
  rw [BitVec.getElem_and, ← BitVec.getLsbD_eq_getElem, ← BitVec.getLsbD_eq_getElem, ← BitVec.getLsbD_eq_getElem,
    bits_formatK, bits_formatK]
  have : ∀ j : Fin 16, (0xF000 : Word).getLsbD j = decide (12 ≤ j.val) := by decide
  have hm := this ⟨i, hi⟩
  simp only at hm
  rw [hm]
  split
  · have : ¬ 12 ≤ i := by omega
    simp [this]
  · split <;> simp_all

/-- A word of format K masked to all digits but `x`. -/
theorem maskX (op : BitVec 4) (x : Reg) (kk : Byte) : formatK op x kk &&& 0xF0FF = formatK op 0 kk := by
  ext i hi
  rw [BitVec.getElem_and, ← BitVec.getLsbD_eq_getElem, ← BitVec.getLsbD_eq_getElem, ← BitVec.getLsbD_eq_getElem,
    bits_formatK, bits_formatK]
  have : ∀ j : Fin 16, (0xF0FF : Word).getLsbD j = decide (j.val < 8 ∨ 12 ≤ j.val) := by decide
  have hm := this ⟨i, hi⟩
  simp only at hm
  rw [hm]
  split
  · have : i < 8 ∨ 12 ≤ i := by omega
    simp [this]
  · split
    · have : ¬ (i < 8 ∨ 12 ≤ i) := by omega
      simp [this]
    · have : i < 8 ∨ 12 ≤ i := by omega
      simp [this]

/-- A word of format R masked to its first and last digit. -/
theorem maskR (op : BitVec 4) (x y : Reg) (n : BitVec 4) : formatR op x y n &&& 0xF00F = formatR op 0 0 n := by
  ext i hi
  rw [BitVec.getElem_and, ← BitVec.getLsbD_eq_getElem, ← BitVec.getLsbD_eq_getElem, ← BitVec.getLsbD_eq_getElem,
    bits_formatR, bits_formatR]
  have : ∀ j : Fin 16, (0xF00F : Word).getLsbD j = decide (j.val < 4 ∨ 12 ≤ j.val) := by decide
  have hm := this ⟨i, hi⟩
  simp only at hm
  rw [hm]
  split
  · have : i < 4 ∨ 12 ≤ i := by omega
    simp [this]
  · split
    · have : ¬ (i < 4 ∨ 12 ≤ i) := by omega
      simp [this]
    · split
      · have : ¬ (i < 4 ∨ 12 ≤ i) := by omega
        simp [this]
      · have : i < 4 ∨ 12 ≤ i := by omega
        simp [this]

/-- A word of format D masked to its first digit. -/
theorem maskD (op : BitVec 4) (x y : Reg) (n : BitVec 4) : formatR op x y n &&& 0xF000 = formatR op 0 0 0 := by
  ext i hi
  rw [BitVec.getElem_and, ← BitVec.getLsbD_eq_getElem, ← BitVec.getLsbD_eq_getElem, ← BitVec.getLsbD_eq_getElem,
    bits_formatR, bits_formatR]
  have : ∀ j : Fin 16, (0xF000 : Word).getLsbD j = decide (12 ≤ j.val) := by decide
  have hm := this ⟨i, hi⟩
  simp only at hm
  rw [hm]
  by_cases h : 12 ≤ i
  · rw [if_neg (by omega), if_neg (by omega), if_neg (by omega), if_neg (by omega), if_neg (by omega), if_neg (by omega)]
    simp [h]
  · simp [h]

theorem cls : Statement .cls := ⟨by decide, by simp only [Instr.row]; decide⟩

theorem ret : Statement .ret := ⟨by decide, by simp only [Instr.row]; decide⟩

theorem jp (nnn : Addr12) : Statement (.jp nnn) := ⟨beq_iff_eq.mpr (maskA _ _), by simp only [Instr.row]; decide⟩

theorem call (nnn : Addr12) : Statement (.call nnn) := ⟨beq_iff_eq.mpr (maskA _ _), by simp only [Instr.row]; decide⟩

theorem seImm (x : Reg) (kk : Byte) : Statement (.seImm x kk) := ⟨beq_iff_eq.mpr (maskK _ _ _), by simp only [Instr.row]; decide⟩

theorem sneImm (x : Reg) (kk : Byte) : Statement (.sneImm x kk) := ⟨beq_iff_eq.mpr (maskK _ _ _), by simp only [Instr.row]; decide⟩

theorem seReg (x y : Reg) : Statement (.seReg x y) := ⟨beq_iff_eq.mpr (maskR _ _ _ _), by simp only [Instr.row]; decide⟩

theorem ldImm (x : Reg) (kk : Byte) : Statement (.ldImm x kk) := ⟨beq_iff_eq.mpr (maskK _ _ _), by simp only [Instr.row]; decide⟩

theorem addImm (x : Reg) (kk : Byte) : Statement (.addImm x kk) := ⟨beq_iff_eq.mpr (maskK _ _ _), by simp only [Instr.row]; decide⟩

theorem ldReg (x y : Reg) : Statement (.ldReg x y) := ⟨beq_iff_eq.mpr (maskR _ _ _ _), by simp only [Instr.row]; decide⟩

theorem orReg (x y : Reg) : Statement (.orReg x y) := ⟨beq_iff_eq.mpr (maskR _ _ _ _), by simp only [Instr.row]; decide⟩

theorem andReg (x y : Reg) : Statement (.andReg x y) := ⟨beq_iff_eq.mpr (maskR _ _ _ _), by simp only [Instr.row]; decide⟩

theorem xorReg (x y : Reg) : Statement (.xorReg x y) := ⟨beq_iff_eq.mpr (maskR _ _ _ _), by simp only [Instr.row]; decide⟩

theorem addReg (x y : Reg) : Statement (.addReg x y) := ⟨beq_iff_eq.mpr (maskR _ _ _ _), by simp only [Instr.row]; decide⟩

theorem subReg (x y : Reg) : Statement (.subReg x y) := ⟨beq_iff_eq.mpr (maskR _ _ _ _), by simp only [Instr.row]; decide⟩

theorem shr (x y : Reg) : Statement (.shr x y) := ⟨beq_iff_eq.mpr (maskR _ _ _ _), by simp only [Instr.row]; decide⟩

theorem subnReg (x y : Reg) : Statement (.subnReg x y) := ⟨beq_iff_eq.mpr (maskR _ _ _ _), by simp only [Instr.row]; decide⟩

theorem shl (x y : Reg) : Statement (.shl x y) := ⟨beq_iff_eq.mpr (maskR _ _ _ _), by simp only [Instr.row]; decide⟩

theorem sneReg (x y : Reg) : Statement (.sneReg x y) := ⟨beq_iff_eq.mpr (maskR _ _ _ _), by simp only [Instr.row]; decide⟩

theorem ldI (nnn : Addr12) : Statement (.ldI nnn) := ⟨beq_iff_eq.mpr (maskA _ _), by simp only [Instr.row]; decide⟩

theorem jpV0 (nnn : Addr12) : Statement (.jpV0 nnn) := ⟨beq_iff_eq.mpr (maskA _ _), by simp only [Instr.row]; decide⟩

theorem rnd (x : Reg) (kk : Byte) : Statement (.rnd x kk) := ⟨beq_iff_eq.mpr (maskK _ _ _), by simp only [Instr.row]; decide⟩

theorem drw (x y : Reg) (n : Nat) : Statement (.drw x y n) := ⟨beq_iff_eq.mpr (maskD _ _ _ _), by simp only [Instr.row]; decide⟩

theorem skp (x : Reg) : Statement (.skp x) := ⟨beq_iff_eq.mpr (maskX _ _ _), by simp only [Instr.row]; decide⟩

theorem sknp (x : Reg) : Statement (.sknp x) := ⟨beq_iff_eq.mpr (maskX _ _ _), by simp only [Instr.row]; decide⟩

theorem ldVxDT (x : Reg) : Statement (.ldVxDT x) := ⟨beq_iff_eq.mpr (maskX _ _ _), by simp only [Instr.row]; decide⟩

theorem ldVxK (x : Reg) : Statement (.ldVxK x) := ⟨beq_iff_eq.mpr (maskX _ _ _), by simp only [Instr.row]; decide⟩

theorem ldDTVx (x : Reg) : Statement (.ldDTVx x) := ⟨beq_iff_eq.mpr (maskX _ _ _), by simp only [Instr.row]; decide⟩

theorem ldSTVx (x : Reg) : Statement (.ldSTVx x) := ⟨beq_iff_eq.mpr (maskX _ _ _), by simp only [Instr.row]; decide⟩

theorem addI (x : Reg) : Statement (.addI x) := ⟨beq_iff_eq.mpr (maskX _ _ _), by simp only [Instr.row]; decide⟩

theorem ldF (x : Reg) : Statement (.ldF x) := ⟨beq_iff_eq.mpr (maskX _ _ _), by simp only [Instr.row]; decide⟩

theorem ldB (x : Reg) : Statement (.ldB x) := ⟨beq_iff_eq.mpr (maskX _ _ _), by simp only [Instr.row]; decide⟩

theorem storeRegs (x : Reg) : Statement (.storeRegs x) := ⟨beq_iff_eq.mpr (maskX _ _ _), by simp only [Instr.row]; decide⟩

theorem loadRegs (x : Reg) : Statement (.loadRegs x) := ⟨beq_iff_eq.mpr (maskX _ _ _), by simp only [Instr.row]; decide⟩

end Sys2Proof.Laws.RowOfEncoding
end

