-- ==== Sys2Proof/Laws/Step.lean ====
section
/-! SUPPORT. What a step can do, said once, and what a ROM load leaves in memory. -/

namespace Sys2Proof.Machine

/-! ## The step -/

theorem step_of_halted {s : State} (h : s.halted = true) : step s = .next s.idle := by
  unfold step
  rw [h]
  rfl

theorem step_of_fetch_none {s : State} (h : s.halted = false) (hf : s.fetch = none) :
    step s = .next (s.raise .fetchRange 0) := by
  unfold step
  rw [h, hf]
  rfl

theorem step_of_decode {s : State} {w : Word} {i : Instr} (h : s.halted = false) (hf : s.fetch = some w)
    (hd : decode w = .ok i) : step s = endStep (exec i s) := by
  unfold step
  rw [h, hf]
  simp [hd]

theorem step_of_unknown {s : State} {w u : Word} (h : s.halted = false) (hf : s.fetch = some w)
    (hd : decode w = .error (.unknownWord u)) : step s = .next (s.runUnknown u).tick := by
  unfold step
  rw [h, hf]
  simp only [hd, endStep_next]
  rw [show (s.runUnknown u).halted = s.halted from rfl, h]
  rfl

/-- Everything a step that answers a next state can have done: stayed halted, failed to fetch, run an unknown word,
completed an instruction, or run one that raised a fault. -/
inductive StepCase (s t : State) : Prop where
  | halted (h : s.halted = true) (e : t = s.idle)
  | fetchRange (h : s.halted = false) (hf : s.fetch = none) (e : t = s.raise .fetchRange 0)
  | unknown (h : s.halted = false) (w u : Word) (hf : s.fetch = some w) (hd : decode w = .error (.unknownWord u))
      (e : t = (s.runUnknown u).tick)
  | completed (h : s.halted = false) (w : Word) (i : Instr) (u : State) (hf : s.fetch = some w) (hd : decode w = .ok i)
      (he : exec i s = .next u) (hu : u.halted = false) (e : t = u.tick)
  | faulted (h : s.halted = false) (w : Word) (i : Instr) (hf : s.fetch = some w) (hd : decode w = .ok i)
      (he : exec i s = .next t) (ht : t.halted = true)

theorem step_cases {s t : State} (hs : step s = .next t) : StepCase s t := by
  cases h : s.halted with
  | true =>
    rw [step_of_halted h] at hs
    cases hs
    exact .halted h rfl
  | false =>
    cases hf : s.fetch with
    | none =>
      rw [step_of_fetch_none h hf] at hs
      cases hs
      exact .fetchRange h hf rfl
    | some w =>
      cases hd : decode w with
      | error e =>
        obtain ⟨u⟩ := e
        rw [step_of_unknown h hf hd] at hs
        cases hs
        exact .unknown h w u hf hd rfl
      | ok i =>
        rw [step_of_decode h hf hd] at hs
        cases he : exec i s with
        | fault r => rw [he] at hs; cases hs
        | refused r => rw [he] at hs; cases hs
        | next u =>
          rw [he, endStep_next] at hs
          cases hu : u.halted with
          | true => rw [hu] at hs; cases hs; exact .faulted h w i hf hd he hu
          | false => rw [hu] at hs; cases hs; exact .completed h w i u hf hd he hu rfl

/-- What phase 5 does (R86). -/
theorem State.tick_spec (u : State) :
    (u.tick.beep = true ↔ u.st.toNat = 1) ∧ u.tick.dt.toNat = u.dt.toNat - 1 ∧ u.tick.st.toNat = u.st.toNat - 1 := by
  refine ⟨?_, countDown_toNat _, countDown_toNat _⟩
  show ((u.st == 1) = true) ↔ _
  simp [← BitVec.toNat_inj]

/-! ## Runs and reset -/

/-- Two runs, one after the other. -/
theorem State.runMoves_append {s t : State} {ms : List Move} (h : s.runMoves ms = .next t) (ms' : List Move) :
    s.runMoves (ms ++ ms') = t.runMoves ms' := by
  induction ms generalizing s with
  | nil => cases h; rfl
  | cons m ms ih =>
    rw [List.cons_append, State.runMoves]
    rw [State.runMoves] at h
    cases hm : s.move m with
    | fault r => rw [hm] at h; cases h
    | refused r => rw [hm] at h; cases h
    | next u => rw [hm] at h; exact ih h

theorem loadRom_wf {p : Params} {rom : List Byte} {a : Nat} {m : Memory} (h : Memory.wf p m = true) :
    Memory.wf p (loadRom p rom a m) = true := by
  induction rom generalizing a m with
  | nil => exact h
  | cons b rom ih => exact ih (Memory.write_wf h a b)

/-- What loading a ROM leaves in memory, at every address (R170). -/
theorem read_loadRom {p : Params} {rom : List Byte} {a : Nat} {m : Memory} (h : Memory.wf p m = true)
    (hfit : a + rom.length ≤ 4096) (k : Nat) :
    Memory.read p (loadRom p rom a m) k =
      if a ≤ k ∧ k < a + rom.length then rom.getD (k - a) 0 else Memory.read p m k := by
  induction rom generalizing a m with
  | nil => rw [if_neg (by intro hk; simp only [List.length_nil] at hk; omega)]; rfl
  | cons b rom ih =>
    rw [List.length_cons] at *
    rw [loadRom, ih (Memory.write_wf h a b) (by omega), Memory.read_write h]
    by_cases hk : k = a
    · subst hk
      rw [if_neg (by omega), if_pos ⟨rfl, by omega⟩, if_pos ⟨by omega, by omega⟩]
      simp
    · rw [if_neg (c := k = a ∧ _) (fun e => hk e.1)]
      by_cases hin : a + 1 ≤ k ∧ k < a + 1 + rom.length
      · rw [if_pos hin, if_pos ⟨by omega, by omega⟩, show k - a = (k - (a + 1)) + 1 by omega]
        simp
      · rw [if_neg hin, if_neg (by omega)]

/-- The reset content: the font copy and zeros (R46, R48). -/
theorem initByte_eq (p : Params) (a : Nat) :
    initByte p a =
      if p.fontBase.addr ≤ a ∧ a < p.fontBase.addr + 80 then fontByte p (a - p.fontBase.addr) else 0 := by
  unfold initByte
  by_cases h : p.fontBase.addr ≤ a
  · rw [if_pos h]
    by_cases h' : a < p.fontBase.addr + 80
    · rw [if_pos ⟨h, h'⟩]
    · rw [if_neg (by omega), fontByte, dif_neg (by omega)]
  · rw [if_neg h, if_neg (by omega)]

end Sys2Proof.Machine
end

