-- ==== Sys2Proof/Tests/Slice0.lean ====
section
/-! SUPPORT. Tests, each with a result taken from the spec: every word is written out from the pattern of its row (R63), every
one-step test is a row of `spec/95_test_vectors.md`, and every statement with hypotheses has a witness that meets them. -/

namespace Sys2Proof.Tests

open Sys2Proof.Machine

/-! ## Well-formed terms: the one check there is, and a term that it refuses (R67) -/

theorem test_wf_accepts_height_15 : WellFormed (.drw 0 0 15) := by decide
theorem test_wf_refuses_height_16 : ¬ WellFormed (.drw 0 0 16) := by decide

/-! ## Decoding: one word per constructor, its digits written out from R63 -/

theorem test_decode_cls : decodeBytes 0x00 0xE0 = .ok (.cls) ∧ encode (.cls) = 0x00E0 := ⟨rfl, rfl⟩
theorem test_decode_ret : decodeBytes 0x00 0xEE = .ok (.ret) ∧ encode (.ret) = 0x00EE := ⟨rfl, rfl⟩
theorem test_decode_jp : decodeBytes 0x1A 0xBC = .ok (.jp 0xABC) ∧ encode (.jp 0xABC) = 0x1ABC := ⟨rfl, rfl⟩
theorem test_decode_call : decodeBytes 0x2A 0xBC = .ok (.call 0xABC) ∧ encode (.call 0xABC) = 0x2ABC := ⟨rfl, rfl⟩
theorem test_decode_seImm : decodeBytes 0x3A 0x42 = .ok (.seImm 0xA 0x42) ∧ encode (.seImm 0xA 0x42) = 0x3A42 := ⟨rfl, rfl⟩
theorem test_decode_sneImm : decodeBytes 0x4A 0x42 = .ok (.sneImm 0xA 0x42) ∧ encode (.sneImm 0xA 0x42) = 0x4A42 := ⟨rfl, rfl⟩
theorem test_decode_seReg : decodeBytes 0x5A 0xB0 = .ok (.seReg 0xA 0xB) ∧ encode (.seReg 0xA 0xB) = 0x5AB0 := ⟨rfl, rfl⟩
theorem test_decode_ldImm : decodeBytes 0x6A 0x42 = .ok (.ldImm 0xA 0x42) ∧ encode (.ldImm 0xA 0x42) = 0x6A42 := ⟨rfl, rfl⟩
theorem test_decode_addImm : decodeBytes 0x7A 0x42 = .ok (.addImm 0xA 0x42) ∧ encode (.addImm 0xA 0x42) = 0x7A42 := ⟨rfl, rfl⟩
theorem test_decode_ldReg : decodeBytes 0x8A 0xB0 = .ok (.ldReg 0xA 0xB) ∧ encode (.ldReg 0xA 0xB) = 0x8AB0 := ⟨rfl, rfl⟩
theorem test_decode_orReg : decodeBytes 0x8A 0xB1 = .ok (.orReg 0xA 0xB) ∧ encode (.orReg 0xA 0xB) = 0x8AB1 := ⟨rfl, rfl⟩
theorem test_decode_andReg : decodeBytes 0x8A 0xB2 = .ok (.andReg 0xA 0xB) ∧ encode (.andReg 0xA 0xB) = 0x8AB2 := ⟨rfl, rfl⟩
theorem test_decode_xorReg : decodeBytes 0x8A 0xB3 = .ok (.xorReg 0xA 0xB) ∧ encode (.xorReg 0xA 0xB) = 0x8AB3 := ⟨rfl, rfl⟩
theorem test_decode_addReg : decodeBytes 0x8A 0xB4 = .ok (.addReg 0xA 0xB) ∧ encode (.addReg 0xA 0xB) = 0x8AB4 := ⟨rfl, rfl⟩
theorem test_decode_subReg : decodeBytes 0x8A 0xB5 = .ok (.subReg 0xA 0xB) ∧ encode (.subReg 0xA 0xB) = 0x8AB5 := ⟨rfl, rfl⟩
theorem test_decode_shr : decodeBytes 0x8A 0xB6 = .ok (.shr 0xA 0xB) ∧ encode (.shr 0xA 0xB) = 0x8AB6 := ⟨rfl, rfl⟩
theorem test_decode_subnReg : decodeBytes 0x8A 0xB7 = .ok (.subnReg 0xA 0xB) ∧ encode (.subnReg 0xA 0xB) = 0x8AB7 := ⟨rfl, rfl⟩
theorem test_decode_shl : decodeBytes 0x8A 0xBE = .ok (.shl 0xA 0xB) ∧ encode (.shl 0xA 0xB) = 0x8ABE := ⟨rfl, rfl⟩
theorem test_decode_sneReg : decodeBytes 0x9A 0xB0 = .ok (.sneReg 0xA 0xB) ∧ encode (.sneReg 0xA 0xB) = 0x9AB0 := ⟨rfl, rfl⟩
theorem test_decode_ldI : decodeBytes 0xAA 0xBC = .ok (.ldI 0xABC) ∧ encode (.ldI 0xABC) = 0xAABC := ⟨rfl, rfl⟩
theorem test_decode_jpV0 : decodeBytes 0xBA 0xBC = .ok (.jpV0 0xABC) ∧ encode (.jpV0 0xABC) = 0xBABC := ⟨rfl, rfl⟩
theorem test_decode_rnd : decodeBytes 0xCA 0x42 = .ok (.rnd 0xA 0x42) ∧ encode (.rnd 0xA 0x42) = 0xCA42 := ⟨rfl, rfl⟩
theorem test_decode_drw : decodeBytes 0xDA 0xBF = .ok (.drw 0xA 0xB 15) ∧ encode (.drw 0xA 0xB 15) = 0xDABF := ⟨rfl, rfl⟩
theorem test_decode_skp : decodeBytes 0xEA 0x9E = .ok (.skp 0xA) ∧ encode (.skp 0xA) = 0xEA9E := ⟨rfl, rfl⟩
theorem test_decode_sknp : decodeBytes 0xEA 0xA1 = .ok (.sknp 0xA) ∧ encode (.sknp 0xA) = 0xEAA1 := ⟨rfl, rfl⟩
theorem test_decode_ldVxDT : decodeBytes 0xFA 0x07 = .ok (.ldVxDT 0xA) ∧ encode (.ldVxDT 0xA) = 0xFA07 := ⟨rfl, rfl⟩
theorem test_decode_ldVxK : decodeBytes 0xFA 0x0A = .ok (.ldVxK 0xA) ∧ encode (.ldVxK 0xA) = 0xFA0A := ⟨rfl, rfl⟩
theorem test_decode_ldDTVx : decodeBytes 0xFA 0x15 = .ok (.ldDTVx 0xA) ∧ encode (.ldDTVx 0xA) = 0xFA15 := ⟨rfl, rfl⟩
theorem test_decode_ldSTVx : decodeBytes 0xFA 0x18 = .ok (.ldSTVx 0xA) ∧ encode (.ldSTVx 0xA) = 0xFA18 := ⟨rfl, rfl⟩
theorem test_decode_addI : decodeBytes 0xFA 0x1E = .ok (.addI 0xA) ∧ encode (.addI 0xA) = 0xFA1E := ⟨rfl, rfl⟩
theorem test_decode_ldF : decodeBytes 0xFA 0x29 = .ok (.ldF 0xA) ∧ encode (.ldF 0xA) = 0xFA29 := ⟨rfl, rfl⟩
theorem test_decode_ldB : decodeBytes 0xFA 0x33 = .ok (.ldB 0xA) ∧ encode (.ldB 0xA) = 0xFA33 := ⟨rfl, rfl⟩
theorem test_decode_storeRegs : decodeBytes 0xFA 0x55 = .ok (.storeRegs 0xA) ∧ encode (.storeRegs 0xA) = 0xFA55 := ⟨rfl, rfl⟩
theorem test_decode_loadRegs : decodeBytes 0xFA 0x65 = .ok (.loadRegs 0xA) ∧ encode (.loadRegs 0xA) = 0xFA65 := ⟨rfl, rfl⟩

/-- Words that differ from a row in one fixed digit are unknown (R64, R65, decision D10). -/
theorem test_unknown_words :
    decode 0x0000 = .error (.unknownWord 0x0000) ∧ decode 0x00E1 = .error (.unknownWord 0x00E1) ∧ decode 0x01E0 = .error (.unknownWord 0x01E0) ∧
    decode 0x5121 = .error (.unknownWord 0x5121) ∧ decode 0x9121 = .error (.unknownWord 0x9121) ∧ decode 0x8128 = .error (.unknownWord 0x8128) ∧
    decode 0x812F = .error (.unknownWord 0x812F) ∧ decode 0xE19F = .error (.unknownWord 0xE19F) ∧ decode 0xF100 = .error (.unknownWord 0xF100) :=
  ⟨rfl, rfl, rfl, rfl, rfl, rfl, rfl, rfl, rfl⟩

/-- The host's numbering: 16 bits of a row, and of a shorter row only the low ones. -/
theorem test_table_word : decodeTableWord 16 0xD015 = some (.drw 0 1 5) ∧ decodeTableWord 16 0x5121 = none ∧
    decodeTableWord 8 0xF0E0 = some .cls := by decide

/-! ## Reset (R29) -/

theorem test_reset_state : State.reset.pc = 0x200 ∧ State.reset.sp = 0 ∧ State.reset.i = 0 ∧ (∀ c < 64, State.reset.pixel c 31 = false) ∧
    State.reset.halted = false := by decide

/-- The glyph of 0 at FONT_BASE, the last byte of the glyph of F, and the zeros around the font (R46, R47, R48). -/
theorem test_reset_font : [0x04F, 0x050, 0x051, 0x054, 0x09F, 0x0A0, 0x200, 0xFFF].map State.reset.readByte =
    [0x00, 0xF0, 0x90, 0xF0, 0x80, 0x00, 0x00, 0x00] := by decide

/-! ## One step, from the reset state with the word at 0x200 -/

/-- The start state of the vectors of `spec/95_test_vectors.md`. -/
def start (w : Nat) : State := State.reset.withFetchWord 16 w

/-- The step answers a next state, and the state passes the check. -/
def stepTo (s : State) (check : State → Bool) : Bool :=
  match step s with
  | .next t => check t
  | .fault _ => false
  | .refused _ => false

/-- The pixels of a row that are enabled, between two columns. -/
def pixelsOn (s : State) (r lo hi : Nat) : List Nat :=
  (List.range (hi - lo)).filterMap fun k => if s.pixel (lo + k) r then some (lo + k) else none

/-! ### The frame (section 2.1) -/

theorem test_unknown_word_runs_the_frame : stepTo ({ start 0x0000 with dt := 3, st := 1 }) (fun t => t.pc == 0x202 && t.unknown && t.unknownWord == 0x0000 && t.dt == 2 && t.st == 0 && t.beep) = true := by decide
theorem test_zero_timer_stays_zero : stepTo ({ start 0x6000 with dt := 0, st := 2 }) (fun t => t.dt == 0 && t.st == 1 && !t.beep && !t.unknown) = true := by decide
theorem test_fetch_range : stepTo ({ start 0x6000 with pc := 0xFFF, dt := 5 }) (fun t => t.faultCause == 1 && t.faultPc == 0xFFF && t.faultInfo == 0 && t.pc == 0xFFF && t.dt == 5) = true := by decide
theorem test_halted_step : stepTo ({ start 0x6000 with faultCause := 3, dt := 5, draw := true }) (fun t => t.pc == 0x200 && t.dt == 5 && !t.draw && t.faultCause == 3) = true := by decide

/-! ### Control flow (section 2.2) -/

theorem test_jp : stepTo (start 0x1FFF) (fun t => t.pc == 0xFFF && !t.halted) = true := by decide
theorem test_call_sixteenth : stepTo ({ start 0x2FFF with sp := 15 }) (fun t => t.stackAt 15 == 0x202 && t.sp == 16 && t.pc == 0xFFF) = true := by decide
theorem test_call_overflow : stepTo ({ start 0x2FFF with sp := 16 }) (fun t => t.faultCause == 3 && t.faultPc == 0x200 && t.faultInfo == 0x2FFF && t.sp == 16 && t.pc == 0x200) = true := by decide
theorem test_ret_pops : stepTo ({ start 0x00EE with sp := 16, stack := State.reset.stack.set 15 0x0ABC }) (fun t => t.sp == 15 && t.pc == 0xABC && t.stackAt 15 == 0xABC) = true := by decide
theorem test_ret_underflow : stepTo (start 0x00EE) (fun t => t.faultCause == 4 && t.faultPc == 0x200 && t.faultInfo == 0x00EE && t.pc == 0x200) = true := by decide
theorem test_seImm_taken : stepTo ((start 0x332A).setReg 0x3 0x2A) (fun t => t.pc == 0x204) = true := by decide
theorem test_seImm_not_taken : stepTo ((start 0x332A).setReg 0x3 0x2B) (fun t => t.pc == 0x202) = true := by decide
theorem test_sneImm_not_taken : stepTo ((start 0x432A).setReg 0x3 0x2A) (fun t => t.pc == 0x202) = true := by decide
theorem test_sneImm_taken : stepTo ((start 0x432A).setReg 0x3 0x00) (fun t => t.pc == 0x204) = true := by decide
theorem test_seReg_equal : stepTo (((start 0x5120).setReg 0x1 0x07).setReg 0x2 0x07) (fun t => t.pc == 0x204) = true := by decide
theorem test_seReg_same_register : stepTo ((start 0x5110).setReg 0x1 0x99) (fun t => t.pc == 0x204) = true := by decide
theorem test_sneReg_differ : stepTo (((start 0x9120).setReg 0x1 0x07).setReg 0x2 0x08) (fun t => t.pc == 0x204) = true := by decide
theorem test_sneReg_same_register : stepTo ((start 0x9110).setReg 0x1 0x99) (fun t => t.pc == 0x202) = true := by decide
theorem test_jpV0 : stepTo ((start 0xB300).setReg 0x0 0x04) (fun t => t.pc == 0x304) = true := by decide
theorem test_jpV0_not_reduced : stepTo ((start 0xBFFF).setReg 0x0 0xFF) (fun t => t.pc == 0x10FE && !t.halted) = true := by decide

/-! ### Load and arithmetic (section 2.3) -/

theorem test_ldImm : stepTo (start 0x6A42) (fun t => t.reg 0xA == 0x42) = true := by decide
theorem test_addImm_wraps : stepTo ((start 0x7102).setReg 0x1 0xFF) (fun t => t.reg 1 == 0x01 && t.reg 0xF == 0x00) = true := by decide
theorem test_addImm_vf_is_plain : stepTo ((start 0x7F01).setReg 0xF 0xFF) (fun t => t.reg 0xF == 0x00) = true := by decide
theorem test_ldReg : stepTo ((start 0x8120).setReg 0x2 0x09) (fun t => t.reg 1 == 0x09) = true := by decide
theorem test_orReg_keeps_vf : stepTo ((((start 0x8121).setReg 0x1 0x0F).setReg 0x2 0xF0).setReg 0xF 0x01) (fun t => t.reg 1 == 0xFF && t.reg 0xF == 0x01) = true := by decide
theorem test_andReg : stepTo (((start 0x8122).setReg 0x1 0x3C).setReg 0x2 0x0F) (fun t => t.reg 1 == 0x0C) = true := by decide
theorem test_xorReg : stepTo (((start 0x8123).setReg 0x1 0xFF).setReg 0x2 0x0F) (fun t => t.reg 1 == 0xF0) = true := by decide
theorem test_addReg_255_clears_flag : stepTo ((((start 0x8124).setReg 0x1 0xFF).setReg 0x2 0x00).setReg 0xF 0x01) (fun t => t.reg 1 == 0xFF && t.reg 0xF == 0x00) = true := by decide
theorem test_addReg_into_vf : stepTo (((start 0x8F14).setReg 0xF 0xF0).setReg 0x1 0x20) (fun t => t.reg 0xF == 0x01) = true := by decide
theorem test_subReg_equal_clears_flag : stepTo ((((start 0x8125).setReg 0x1 0x00).setReg 0x2 0x00).setReg 0xF 0x01) (fun t => t.reg 0xF == 0x00 && t.reg 1 == 0x00) = true := by decide
theorem test_subReg_into_vf : stepTo (((start 0x8F15).setReg 0xF 0x20).setReg 0x1 0x10) (fun t => t.reg 0xF == 0x10) = true := by decide
theorem test_subnReg : stepTo (((start 0x8127).setReg 0x1 0x10).setReg 0x2 0x20) (fun t => t.reg 0xF == 0x01 && t.reg 1 == 0x10) = true := by decide
theorem test_subnReg_equal : stepTo (((start 0x8127).setReg 0x1 0x33).setReg 0x2 0x33) (fun t => t.reg 0xF == 0x00 && t.reg 1 == 0x00) = true := by decide
theorem test_shr_scenario_S2 : stepTo (((start 0x8126).setReg 0x1 0x81).setReg 0x2 0x33) (fun t => t.reg 0xF == 0x01 && t.reg 1 == 0x40 && t.reg 2 == 0x33) = true := by decide
theorem test_shr_quirky_takes_vy : stepTo ({ ((start 0x8126).setReg 0x1 0x81).setReg 0x2 0x33 with quirky := true }) (fun t => t.reg 0xF == 0x01 && t.reg 1 == 0x19) = true := by decide
theorem test_shl_flag_is_one : stepTo (((start 0x812E).setReg 0x1 0xFF).setReg 0x2 0x00) (fun t => t.reg 0xF == 0x01 && t.reg 1 == 0xFE) = true := by decide
theorem test_shl_quirky_into_vf : stepTo ({ ((start 0x8F1E).setReg 0xF 0x81).setReg 0x1 0x33 with quirky := true }) (fun t => t.reg 0xF == 0x66) = true := by decide
/-- C10F: the free byte is masked, and the next one is another (R111). -/
theorem test_rnd : ∃ t, step (start 0xC10F) = .next t ∧ t.reg 1 = Config.rnd 0 &&& 0x0F ∧ t.draws = 1 := ⟨_, rfl, rfl, rfl⟩

/-! ### Index and memory (section 2.4) -/

theorem test_ldI_clears_the_top : stepTo ({ start 0xAFFF with i := 0xFFFF }) (fun t => t.i == 0x0FFF) = true := by decide
theorem test_addI_wraps_at_65536 : stepTo ({ (start 0xF11E).setReg 0x1 0x02 with i := 0xFFFF }) (fun t => t.i == 0x0001 && t.reg 0xF == 0) = true := by decide
theorem test_addI_not_reduced : stepTo ({ (start 0xF11E).setReg 0x1 0x01 with i := 0x0FFF }) (fun t => t.i == 0x1000 && !t.halted) = true := by decide
theorem test_ldF : stepTo ((start 0xF429).setReg 0x4 0x0A) (fun t => t.i == 0x0082) = true := by decide
theorem test_ldF_no_mask : stepTo ((start 0xF129).setReg 0x1 0xFF) (fun t => t.i == 0x054B) = true := by decide
theorem test_ldB_scenario_S3 : stepTo ({ (start 0xF133).setReg 0x1 0x7B with i := 0x300 }) (fun t => [0x300, 0x301, 0x302, 0x303].map t.readByte == [1, 2, 3, 0] && t.i == 0x300) = true := by decide
theorem test_ldB_range : stepTo ({ (start 0xF133).setReg 0x1 0xFF with i := 0x0FFE }) (fun t => t.faultCause == 2 && t.faultPc == 0x200 && t.faultInfo == 0xF133 && t.pc == 0x200 && t.readByte 0xFFE == 0) = true := by decide
theorem test_storeRegs_quirky : stepTo ({ ((((start 0xF255).setReg 0x0 0x11).setReg 0x1 0x22).setReg 0x2 0x33).setReg 0x3 0x44 with i := 0x400, quirky := true }) (fun t => [0x400, 0x401, 0x402, 0x403].map t.readByte == [0x11, 0x22, 0x33, 0] && t.i == 0x403) = true := by decide
theorem test_storeRegs_range : stepTo ({ start 0xFF55 with i := 0x0FF1, mem := (start 0xFF55).mem }) (fun t => t.faultCause == 2 && t.faultInfo == 0xFF55 && t.readByte 0xFF1 == 0) = true := by decide
theorem test_loadRegs : stepTo { ((((start 0xF265).writeByte 0x400 0x11).writeByte 0x401 0x22).writeByte 0x402 0x33).setReg 3 0x99 with i := 0x400 }
    (fun t => t.reg 0 == 0x11 && t.reg 1 == 0x22 && t.reg 2 == 0x33 && t.reg 3 == 0x99 && t.i == 0x400) = true := by decide
theorem test_loadRegs_range : stepTo ({ start 0xF165 with i := 0x0FFF }) (fun t => t.faultCause == 2 && t.faultInfo == 0xF165 && t.reg 0 == 0) = true := by decide

/-! ### Display (section 2.5) -/

theorem test_cls : stepTo ({ (start 0x00E0).setReg 0xF 0x01 with fb := State.reset.fb.set 31 1 }) (fun t => t.fb == State.reset.fb && t.draw && t.reg 0xF == 0x01) = true := by decide
theorem test_drw_glyph_zero : stepTo ({ start 0xD015 with i := 0x050 }) (fun t => pixelsOn t 0 0 5 == [0, 1, 2, 3] && pixelsOn t 2 0 5 == [0, 3] && t.reg 0xF == 0 && t.draw) = true := by decide
theorem test_drw_collides : stepTo { (start 0xD011).writeByte 0x300 0xC0 with i := 0x300, fb := State.reset.fb.set 0 2 }
    (fun t => pixelsOn t 0 0 9 == [0] && t.reg 0xF == 1) = true := by decide
theorem test_drw_clips_at_the_edge : stepTo { ((start 0xD011).writeByte 0x300 0xFF).setReg 0 0x3E with i := 0x300 }
    (fun t => pixelsOn t 0 60 64 == [62, 63] && pixelsOn t 0 0 6 == [] && pixelsOn t 1 0 6 == [] && t.reg 0xF == 0) = true := by decide
theorem test_drw_wraps_when_told : stepTo { ((start 0xD011).writeByte 0x300 0xFF).setReg 0 0x3E with
      i := 0x300, params := { Params.standard with edge := .wrap } }
    (fun t => pixelsOn t 0 60 64 == [62, 63] && pixelsOn t 0 0 8 == [0, 1, 2, 3, 4, 5]) = true := by decide
theorem test_drw_range : stepTo ({ (start 0xD121).setReg 0xF 0x01 with i := 0x1000 }) (fun t => t.faultCause == 2 && t.faultInfo == 0xD121 && !t.draw && t.reg 0xF == 1) = true := by decide
theorem test_drw_no_rows : stepTo ({ (start 0xD120).setReg 0xF 0x07 with i := 0xFFFF }) (fun t => t.fb == State.reset.fb && t.reg 0xF == 0 && t.draw && !t.halted) = true := by decide

/-! ### Keypad (section 2.6) and timers (section 2.7) -/

theorem test_skp_taken : stepTo ({ (start 0xE19E).setReg 0x1 0x0F with keypad := 0x8000 }) (fun t => t.pc == 0x204) = true := by decide
theorem test_skp_range : stepTo ((start 0xE19E).setReg 0x1 0x10) (fun t => t.faultCause == 5 && t.faultPc == 0x200 && t.faultInfo == 0xE19E && t.pc == 0x200) = true := by decide
theorem test_sknp_key_zero : stepTo ({ (start 0xE1A1).setReg 0x1 0x00 with keypad := 0xFFFE }) (fun t => t.pc == 0x204) = true := by decide
theorem test_sknp_not_taken : stepTo ({ (start 0xE1A1).setReg 0x1 0x0F with keypad := 0x8000 }) (fun t => t.pc == 0x202) = true := by decide
theorem test_ldVxK_waits : stepTo ({ (start 0xF10A).setReg 0x1 0x55 with dt := 2, st := 1 }) (fun t => t.pc == 0x200 && t.reg 1 == 0x55 && t.dt == 1 && t.st == 0 && t.beep) = true := by decide
theorem test_ldVxK_lowest : stepTo ({ start 0xF30A with keypad := 0x1080 }) (fun t => t.reg 3 == 7 && t.pc == 0x202) = true := by decide
theorem test_ldVxDT : stepTo ({ start 0xF107 with dt := 5 }) (fun t => t.reg 1 == 5 && t.dt == 4) = true := by decide
theorem test_ldDTVx : stepTo ((start 0xF115).setReg 0x1 0x05) (fun t => t.dt == 4) = true := by decide
theorem test_ldSTVx_beeps_at_once : stepTo ((start 0xF118).setReg 0x1 0x01) (fun t => t.st == 0 && t.beep) = true := by decide
theorem test_ldSTVx_overwrites : stepTo ({ (start 0xF118).setReg 0x1 0x00 with st := 1 }) (fun t => t.st == 0 && !t.beep) = true := by decide

/-- Scenario S1, through the host's moves: `60 05 70 03` is loaded, and two steps leave V0 = 8 and `pc` = 0x204. -/
theorem test_scenario_S1 : (match State.reset.runMoves [.launch Params.standard [0x60, 0x05, 0x70, 0x03] false, .step, .step] with
    | .next t => t.reg 0 == 8 && t.pc == 0x204
    | .fault _ => false
    | .refused _ => false) = true := by decide

/-! ## Witnesses: for every statement with hypotheses, states and operands that meet all of them together -/

/-- `DecodeOfEncode` -/
theorem witness_DecodeOfEncode : WellFormed (.drw 0xF 0 15) ∧ WellFormed .cls := by decide

/-- `EncodeOfDecode` -/
theorem witness_EncodeOfDecode : decode 0xDF0F = .ok (.drw 0xF 0 15) := rfl

/-- `DecodeMatchesTable`: its three clauses -/
theorem witness_DecodeMatchesTable : decode 0xF065 = .ok (.loadRegs 0) ∧
    (⟨0xF0FF, 0xF065⟩ ∈ opcodeTable ∧ OpcodeRow.covers ⟨0xF0FF, 0xF065⟩ 0xFF65 = true) ∧
    ∀ r ∈ opcodeTable, r.covers 0xF066 = false := ⟨rfl, by decide, by decide⟩

/-- `TableRowsDisjoint` -/
theorem witness_TableRowsDisjoint : ⟨0xFFFF, 0x00EE⟩ ∈ opcodeTable ∧ OpcodeRow.covers ⟨0xFFFF, 0x00EE⟩ 0x00EE = true := by
  decide

/-- A state with the two bytes at `pc` 4094, the last address a fetch can read. -/
def lastCells (hi lo : Byte) : State :=
  ({ State.reset with pc := 0xFFE }.writeByte 0xFFE hi).writeByte 0xFFF lo

/-- A sprite of one row at the right edge, under the value `fail` of SPRITE_EDGE. -/
def overhang : State := { (start 0xD011).setReg 0 57 with params := { Params.standard with edge := .fail } }

/-- `FetchIsBigEndian`: both clauses, where they meet -/
theorem witness_FetchIsBigEndian : (lastCells 0x12 0x34).pc.toNat = 4094 ∧ { State.reset with pc := 0xFFF }.pc.toNat > 4094 := by
  decide

/-- `StepRunsDecoded`, an instruction that completes -/
theorem witness_StepRunsDecoded : (lastCells 0x6A 0x42).halted = false ∧ (lastCells 0x6A 0x42).pc.toNat ≤ 4094 ∧
    decodeBytes ((lastCells 0x6A 0x42).readByte 4094) ((lastCells 0x6A 0x42).readByte 4095) = .ok (.ldImm 0xA 0x42) ∧
    ∃ t, exec (.ldImm 0xA 0x42) (lastCells 0x6A 0x42) = .next t := ⟨rfl, by decide, rfl, _, rfl⟩

/-- `StepRunsDecoded`, an instruction that the model refuses -/
theorem witness_StepRunsDecoded_refused : overhang.halted = false ∧ overhang.pc.toNat ≤ 4094 ∧
    decodeBytes (overhang.readByte 0x200) (overhang.readByte 0x201) = .ok (.drw 0 1 1) ∧
    exec (.drw 0 1 1) overhang = .refused .spriteOffGrid := ⟨rfl, by decide, rfl, rfl⟩

/-- `FetchOutOfRangeFaults` -/
theorem witness_FetchOutOfRangeFaults : { State.reset with pc := 0xFFF }.halted = false ∧
    { State.reset with pc := 0xFFF }.pc.toNat > 4094 := by decide

/-- `UnknownWordIsReportedNoOp` -/
theorem witness_UnknownWordIsReportedNoOp : State.reset.halted = false ∧ State.reset.fetch = some 0x0000 ∧
    ∀ r ∈ opcodeTable, r.covers 0x0000 = false := by decide

/-- `TimersCountEveryStep`: an instruction, and an unknown word -/
theorem witness_TimersCountEveryStep :
    (∃ u, (start 0x6A42).halted = false ∧ (start 0x6A42).fetch = some 0x6A42 ∧
      (∀ i, decode 0x6A42 = .ok i → exec i (start 0x6A42) = .next u) ∧
      (∀ e, decode 0x6A42 = .error e → u = (start 0x6A42).runUnknown 0x6A42) ∧ u.halted = false) ∧
    ∃ u, State.reset.halted = false ∧ State.reset.fetch = some 0x0000 ∧
      (∀ i, decode 0x0000 = .ok i → exec i State.reset = .next u) ∧
      (∀ e, decode 0x0000 = .error e → u = State.reset.runUnknown 0x0000) ∧ u.halted = false := by
  refine ⟨⟨(start 0x6A42).advance.setReg 0xA 0x42, rfl, by decide, ?_, ?_, rfl⟩,
    State.reset.runUnknown 0x0000, rfl, by decide, ?_, fun _ _ => rfl, rfl⟩
  · intro i h
    cases h
    rfl
  · intro e h
    cases h
  · intro i h
    cases h

/-- A state halted by a key number out of range. -/
def stopped : State := { State.reset with faultCause := 5, faultPc := 0x200, faultInfo := 0xE19E }

/-- `HaltedStepClearsOutputs` -/
theorem witness_HaltedStepClearsOutputs : { stopped with draw := true, beep := true }.halted = true := by decide

/-- `HaltedUntilReset` -/
theorem witness_HaltedUntilReset : stopped.halted = true ∧ [Move.step, .keys 0xFFFF, .step].all Move.isKeysOrStep = true := by
  decide

/-- `FaultPreCheck`: a condition that holds at its boundary, and the same one just below -/
theorem witness_FaultPreCheck : (∀ x y n, Instr.storeRegs 0xF = .drw x y n → ¬ RefusedSprite State.reset x y n) ∧
    faultCondition { State.reset with i := 0xFF1 } (.storeRegs 0xF) = some 2 ∧
    faultCondition { State.reset with i := 0xFF0 } (.storeRegs 0xF) = none := ⟨nofun, by decide, by decide⟩

/-- `FaultPreCheck` for a sprite under `fail`: one that does not overhang is checked like any other -/
theorem witness_FaultPreCheck_sprite : ¬ RefusedSprite (overhang.setReg 0 56) 0 1 1 ∧
    faultCondition { overhang with i := 0x1000 } (.drw 0 1 1) = some 2 :=
  ⟨fun h => absurd h.2.2 (by decide), by decide⟩

/-- `FaultingStepIsPrecise` -/
theorem witness_FaultingStepIsPrecise : (∀ x y n, Instr.ret = .drw x y n → ¬ RefusedSprite (start 0x00EE) x y n) ∧
    (start 0x00EE).halted = false ∧ (start 0x00EE).fetch = some 0x00EE ∧ decode 0x00EE = .ok .ret ∧
    faultCondition (start 0x00EE) .ret = some 4 := ⟨nofun, rfl, rfl, rfl, rfl⟩

/-- `EveryStepAnswers` -/
theorem witness_EveryStepAnswers : State.reset.params.edge ≠ .fail := by decide

/-- `DrawFlagTellsTheStep`: a step that sets the flag and one that does not -/
theorem witness_DrawFlagTellsTheStep : (∃ t, step (start 0x00E0) = .next t ∧ t.draw = true) ∧
    ∃ t, step (start 0x6A42) = .next t ∧ t.draw = false := ⟨⟨_, rfl, rfl⟩, _, rfl, rfl⟩

/-- `StepKeepsInv`: the state after reset meets the invariant, and so does a halted one -/
theorem witness_StepKeepsInv : (Inv (start 0x2ABC) ∧ ∃ t, step (start 0x2ABC) = .next t) ∧ Inv stopped := by
  have entries : ∀ k, (State.reset.stackAt k).toNat ≤ 4096 := by
    intro k
    unfold State.stackAt
    by_cases h : k < 16
    · rw [Vector.getElem?_eq_getElem h]
      simp [State.reset]
    · rw [Vector.getElem?_eq_none (by omega)]
      decide
  refine ⟨⟨?_, _, rfl⟩, ?_⟩
  · exact ⟨by decide, by decide, entries, by decide, by decide, by decide, by decide, by decide, by decide⟩
  · exact ⟨by decide, by decide, entries, by decide, by decide, by decide, by decide, by decide, by decide⟩

/-- `HostRunsKeepInv` -/
theorem witness_HostRunsKeepInv : ∃ t u, State.reset.launch Params.standard [0x60, 0x05] true = .next t ∧
    t.runMoves [.step, .keys 0x8000, .step, .launch Params.standard [] false] = .next u := ⟨_, _, rfl, rfl⟩

/-- `RegistersWritten`: an instruction that writes registers, and one of the registers it may not write -/
theorem witness_RegistersWritten : (∃ t, exec (.addReg 1 2) State.reset = .next t) ∧ ¬ writesReg State.reset 2 (.addReg 1 2) := by
  refine ⟨⟨_, rfl⟩, ?_⟩
  unfold writesReg
  decide

/-- `RegistersRead`: every register but the two that are read differs, the next state is there, and one register is
written and another is not -/
theorem witness_RegistersRead :
    (∀ r, readsReg State.reset r (.addReg 1 2) →
      ({ State.reset with v := ((Vector.replicate 16 0xAA).set 1 0).set 2 0 } : State).reg r = State.reset.reg r) ∧
    (∃ t, exec (.addReg 1 2) State.reset = .next t) ∧ faultCondition State.reset (.addReg 1 2) = none ∧
    writesReg State.reset 1 (.addReg 1 2) ∧ ¬ writesReg State.reset 3 (.addReg 1 2) := by
  refine ⟨?_, ⟨_, rfl⟩, rfl, .inl rfl, ?_⟩
  · rintro r (rfl | rfl) <;> decide
  · unfold writesReg
    decide

/-- `RegistersRead`: a fault that a register decides -/
theorem witness_RegistersRead_fault : readsReg State.reset 1 (.skp 1) ∧ (∃ t, exec (.skp 1) (State.reset.setReg 1 16) = .next t) ∧
    faultCondition (State.reset.setReg 1 16) (.skp 1) ≠ none := ⟨rfl, ⟨_, rfl⟩, by decide⟩

/-- `OnlyTheNamedWriters` -/
theorem witness_OnlyTheNamedWriters : (∃ t, exec (.addI 1) State.reset = .next t) ∧ ¬ mayChange State.reset (.addI 1) .regs :=
  ⟨⟨_, rfl⟩, fun ⟨_, h⟩ => h⟩

/-- `StepsKeepConfiguration`: a step, and one that executes neither Fx33 nor Fx55 -/
theorem witness_StepsKeepConfiguration : (∃ t, step State.reset = .next t) ∧ (∀ x, ¬ Executes State.reset (.ldB x)) ∧
    ∀ x, ¬ Executes State.reset (.storeRegs x) := by
  have hf : State.reset.fetch = some 0x0000 := by decide
  refine ⟨⟨_, rfl⟩, ?_, ?_⟩
  · rintro x ⟨_, w, hw, hd⟩
    rw [hf] at hw
    cases hw
    cases hd
  · rintro x ⟨_, w, hw, hd⟩
    rw [hf] at hw
    cases hw
    cases hd

/-- `ReadAfterWrite`: the last cell, and another one -/
theorem witness_ReadAfterWrite : Memory.wf (start 0x6A42).params (start 0x6A42).mem = true ∧ 4095 < 4096 ∧ 0 ≠ 4095 := by decide

/-- `PlacedWordIsFetched` -/
theorem witness_PlacedWordIsFetched : Memory.wf (lastCells 0x12 0x34).params (lastCells 0x12 0x34).mem = true ∧
    (lastCells 0x12 0x34).pc.toNat ≤ 4094 := by decide

/-- `LaunchState`: the longest ROM that fits -/
theorem witness_LaunchState : (List.replicate 3584 (0xFF : Byte)).length ≤ 3584 ∧
    Params.standard.onColor ≠ Params.standard.offColor :=
  ⟨Nat.le_of_eq List.length_replicate, by decide⟩

/-- `LongRomIsRefused`: the shortest ROM that does not -/
theorem witness_LongRomIsRefused : (List.replicate 3585 (0xFF : Byte)).length > 3584 := by rw [List.length_replicate]; decide

/-- `EmptyRomRun`: a launch, and the counts where its two clauses meet -/
theorem witness_EmptyRomRun : (∃ t, State.reset.launch Params.standard [] true = .next t) ∧ (0 < 1792 ∧ 1792 ≤ 1792) ∧ 1793 > 1792 :=
  ⟨⟨_, rfl⟩, by decide, by decide⟩

/-- `ReturnPops`: both clauses, where they meet -/
theorem witness_ReturnPops : State.reset.sp.toNat = 0 ∧ { State.reset with sp := 1 }.sp.toNat ≠ 0 := by decide

/-- `CallPushes`: both clauses, where they meet -/
theorem witness_CallPushes : { State.reset with sp := 16 }.sp.toNat = 16 ∧ { State.reset with sp := 15 }.sp.toNat < 16 := by decide

/-- `CallThenReturn` -/
theorem witness_CallThenReturn : { State.reset with sp := 15 }.sp.toNat < 16 := by decide

/-- `AddWithCarry`, `SubtractWithFlag`, `ReverseSubtractWithFlag`, `ShiftRight`, `ShiftLeft`: both modes, and a
destination other than VF -/
theorem witness_FlagClauses : State.reset.quirky = false ∧ { State.reset with quirky := true }.quirky = true ∧ (0xE : Reg) ≠ regF := by
  decide

/-- `RandomIsMasked`: a register that is not the destination -/
theorem witness_RandomIsMasked : (0 : Reg) ≠ 1 := by decide

/-- `DecimalDigitsStored`: both clauses, where they meet -/
theorem witness_DecimalDigitsStored : Memory.wf State.reset.params State.reset.mem = true ∧
    { State.reset with i := 4094 }.i.toNat > 4093 ∧ { State.reset with i := 4093 }.i.toNat ≤ 4093 := by decide

/-- `RegistersStored`, `RegistersLoaded`: both clauses, where they meet, for all 16 registers -/
theorem witness_RegistersStored : Memory.wf State.reset.params State.reset.mem = true ∧
    { State.reset with i := 4081 }.i.toNat + (15 : Reg).toNat > 4095 ∧
    { State.reset with i := 4080 }.i.toNat + (15 : Reg).toNat ≤ 4095 ∧ (0 : Reg).toNat ≤ (15 : Reg).toNat := by decide

/-- `RegistersLoaded`: a register above the last one loaded -/
theorem witness_RegistersLoaded : { State.reset with i := 4095 }.i.toNat + (0 : Reg).toNat ≤ 4095 ∧
    { State.reset with i := 4095 }.i.toNat + (1 : Reg).toNat > 4095 ∧ (0 : Reg).toNat < (1 : Reg).toNat := by decide

/-- `StoreThenLoadRestores` -/
theorem witness_StoreThenLoadRestores : ∃ t, Memory.wf State.reset.params State.reset.mem = true ∧
    { State.reset with i := 4080 }.quirky = false ∧ { State.reset with i := 4080 }.i.toNat + (15 : Reg).toNat ≤ 4095 ∧
    exec (.storeRegs 15) { State.reset with i := 4080 } = .next t := ⟨_, by decide, by decide, by decide, rfl⟩

/-- A sprite byte 0x80 at `I`, and V0, V1 zero: its one set bit is the top left one. -/
def oneDot : State := { State.reset.writeByte 0x300 0x80 with i := 0x300 }

/-- `SpriteIsXored`: a pixel that the sprite's one set bit lands on, off and on before, and one that no bit lands on -/
theorem witness_SpriteIsXored : (WellFormed (.drw 0 1 15) ∧ oneDot.i.toNat + 15 - 1 ≤ 4095 ∧ ¬ RefusedSprite oneDot 0 1 15) ∧
    (Lit oneDot 0 1 1 0 0 ∧ oneDot.pixel 0 0 = false) ∧
    (Lit { oneDot with fb := oneDot.fb.set 0 1 } 0 1 1 0 0 ∧ { oneDot with fb := oneDot.fb.set 0 1 }.pixel 0 0 = true) ∧
    ¬ Lit oneDot 0 1 1 63 31 := by
  refine ⟨⟨by decide, by decide, fun h => absurd h.1 (by decide)⟩, ⟨⟨0, by decide, 0, by decide, by decide, ?_⟩, by decide⟩,
    ⟨⟨0, by decide, 0, by decide, by decide, ?_⟩, by decide⟩, ?_⟩
  · exact ⟨rfl, rfl⟩
  · exact ⟨rfl, rfl⟩
  · rintro ⟨row, hrow, col, hcol, _, hc, hr⟩
    have h0 : (oneDot.reg 0).toNat % 64 = 0 := rfl
    have hc' : (oneDot.reg 0).toNat % 64 + col = 63 := hc
    omega

/-- `SpriteIsXored`, `DrawingTwiceRestores`: the last address a sprite can read from, and a sprite of no rows -/
theorem witness_SpriteRange : { State.reset with i := 4081 }.i.toNat + 15 - 1 ≤ 4095 ∧ WellFormed (.drw 0 1 0) := by decide

/-- `DrawingTwiceRestores`: a first draw, and a pixel it turns on -/
theorem witness_DrawingTwiceRestores : ∃ t, WellFormed (.drw 0 1 1) ∧ oneDot.i.toNat + 1 - 1 ≤ 4095 ∧
    exec (.drw 0 1 1) oneDot = .next t ∧ Lit oneDot 0 1 1 0 0 ∧ oneDot.pixel 0 0 = false :=
  ⟨_, by decide, by decide, rfl, witness_SpriteIsXored.2.1⟩

/-- `OverhangRefusedUnderFail`: both sides, at the first column that overhangs -/
theorem witness_OverhangRefusedUnderFail : RefusedSprite overhang 0 1 1 ∧
    exec (.drw 0 1 1) overhang = .refused .spriteOffGrid := ⟨⟨rfl, by decide, .inl (by decide)⟩, rfl⟩

/-- `EmptySprite`: a register other than VF -/
theorem witness_EmptySprite : (0 : Reg) ≠ regF := by decide

/-- `SkipOnKey`: both clauses, where they meet -/
theorem witness_SkipOnKey : ((State.reset.setReg 1 16).reg 1).toNat > 15 ∧ ((State.reset.setReg 1 15).reg 1).toNat ≤ 15 := by decide

/-- `WaitForKey`: only the highest key down, the lowest among several, and none -/
theorem witness_WaitForKey : ({ State.reset with keypad := 0x8000 }.keypad.getLsbD 15 = true ∧
      ∀ j < 15, { State.reset with keypad := 0x8000 }.keypad.getLsbD j = false) ∧
    { State.reset with keypad := 0xFFFF }.keypad.getLsbD 0 = true ∧ ∀ k < 16, State.reset.keypad.getLsbD k = false := by decide

/-- F115, then F207 twice. -/
def countingDown : State := (((start 0xF115).writeByte 0x203 0x07).writeByte 0x202 0xF2).setReg 1 5

/-- The state after the step that executes F115. -/
def afterWrite : State := { countingDown with pc := 0x202, dt := 4 }

/-- `DelayCountdown`: the writing step, one more step that writes no DT, and an Fx07 at its end -/
theorem witness_DelayCountdown : ∃ u u', Executes countingDown (.ldDTVx 1) ∧ step countingDown = .next afterWrite ∧
    StepsAvoiding (fun i => ∃ x', i = .ldDTVx x') 1 afterWrite u ∧
    Executes { afterWrite with dt := 3 } (.ldVxDT 2) ∧ step { afterWrite with dt := 3 } = .next u' := by
  have hf : afterWrite.fetch = some 0xF207 := rfl
  have hs : step countingDown = .next afterWrite := rfl
  refine ⟨_, _, ⟨rfl, _, rfl, rfl⟩, hs, .more (.none _) rfl ?_ rfl rfl, ⟨rfl, _, rfl, rfl⟩, rfl⟩
  rintro w i hw hd ⟨x', rfl⟩
  rw [hf] at hw
  cases hw
  cases hd

/-- `SoundBeepsOnce`: the writing step with the value 1, which beeps at once, and the same run of one more step -/
theorem witness_SoundBeepsOnce : ∃ t u, Executes ((start 0xF118).setReg 1 1) (.ldSTVx 1) ∧
    step ((start 0xF118).setReg 1 1) = .next t ∧
    StepsAvoiding (fun i => ∃ x', i = .ldSTVx x') 1 t u := by
  refine ⟨_, _, ⟨rfl, _, rfl, rfl⟩, rfl, .more (.none _) rfl ?_ rfl rfl⟩
  rintro w i hw hd ⟨x', rfl⟩
  cases hw
  cases hd

/-- `RestingStays` -/
theorem witness_RestingStays : Resting (start 0x1200) ∧ [Move.keys 0x8000, .step].all Move.isKeysOrStep = true ∧
    Move.step ∈ [Move.keys 0x8000, .step] := ⟨⟨by decide, by decide, by decide⟩, by decide, by decide⟩

end Sys2Proof.Tests
end

section
/-! SUPPORT. `exec` by pieces of state: which fault its pre-check raises, and what the completed instruction leaves in each
piece, each piece's function naming the piece's writers and nothing else.  `exec_eq` ties them to the model. -/

namespace Sys2Proof.Machine

/-! ## The three ends of an instruction -/

/-- SPRITE_EDGE's value `fail` refuses the instruction (R128). -/
def State.refuses (s : State) : Instr → Bool
  | .drw x y n => decide (s.params.edge = .fail) && s.overhangs x y n
  | _ => false

/-- The fault that the pre-check raises (R88). -/
def State.faultOf (s : State) : Instr → Option FaultCause
  | .ret => if s.sp = 0 then some .stackUnderflow else none
  | .call _ => if s.sp = 16 then some .stackOverflow else none
  | .drw _ _ n => if s.cellsExist n then none else some .dataRange
  | .ldB _ => if s.cellsExist 3 then none else some .dataRange
  | .storeRegs x | .loadRegs x => if s.cellsExist (x.toNat + 1) then none else some .dataRange
  | .skp x | .sknp x => if (s.reg x).toNat > 15 then some .keyRange else none
  | _ => none

/-! ## What a completed instruction leaves in each piece of state -/

/-- The sprite that Dxyn draws, with its collision flag (R126). -/
def State.drawn (s : State) (x y : Reg) (n : Nat) : Raster := s.plotRows (s.originX x) (s.originY y) n

/-- The register writes, in the order of the instruction's row (R113). -/
def State.writeRegs (s : State) : Instr → State
  | .ldImm x kk => s.setReg x kk
  | .addImm x kk => s.setReg x (addByte (s.reg x) kk)
  | .ldReg x y => s.setReg x (s.reg y)
  | .orReg x y => s.setReg x (s.reg x ||| s.reg y)
  | .andReg x y => s.setReg x (s.reg x &&& s.reg y)
  | .xorReg x y => s.setReg x (s.reg x ^^^ s.reg y)
  | .addReg x y => (s.setReg x (addByte (s.reg x) (s.reg y))).setFlag (carryOut (s.reg x) (s.reg y))
  | .subReg x y => (s.setFlag (noBorrow (s.reg x) (s.reg y))).setReg x (subByte (s.reg x) (s.reg y))
  | .subnReg x y => (s.setFlag (noBorrow (s.reg y) (s.reg x))).setReg x (subByte (s.reg y) (s.reg x))
  | .shr x y => (s.setFlag (shiftedOutRight (s.shiftSource x y))).setReg x (shiftRight (s.shiftSource x y))
  | .shl x y => (s.setFlag (shiftedOutLeft (s.shiftSource x y))).setReg x (shiftLeft (s.shiftSource x y))
  | .rnd x kk => s.setReg x (Config.rnd s.draws &&& kk)
  | .drw x y n => s.setFlag (s.drawn x y n).hit
  | .ldVxDT x => s.setReg x s.dt
  | .ldVxK x => s.takeKey x s.lowestKey
  | .loadRegs x => s.loadFirst (x.toNat + 1)
  | _ => s

/-- The program counter after phases 3 and 4. -/
def State.pcAfter (s : State) : Instr → Word
  | .ret => s.stackAt (s.sp - 1).toNat
  | .jp nnn | .call nnn => zext16 nnn
  | .seImm x kk => (s.advance.skipIf (s.reg x == kk)).pc
  | .sneImm x kk => (s.advance.skipIf (s.reg x != kk)).pc
  | .seReg x y => (s.advance.skipIf (s.reg x == s.reg y)).pc
  | .sneReg x y => (s.advance.skipIf (s.reg x != s.reg y)).pc
  | .jpV0 nnn => zext16 (s.reg 0#4) + zext16 nnn
  | .skp x => (s.advance.skipIf (s.keyDown (s.reg x).toNat)).pc
  | .sknp x => (s.advance.skipIf (!s.keyDown (s.reg x).toNat)).pc
  | .ldVxK x => (s.advance.takeKey x s.lowestKey).pc
  | _ => s.advance.pc

/-- I (R14). -/
def State.indexAfter (s : State) : Instr → Word
  | .ldI nnn => zext16 nnn
  | .addI x => s.i + zext16 (s.reg x)
  | .ldF x => s.glyphAddr (s.reg x)
  | .storeRegs x | .loadRegs x => s.bulkIndex x
  | _ => s.i

/-- The stack pointer (R17). -/
def State.spAfter (s : State) : Instr → BitVec 5
  | .ret => s.sp - 1
  | .call _ => s.sp + 1
  | _ => s.sp

/-- The stack entries (R16). -/
def State.stackAfter (s : State) : Instr → Vector Word 16
  | .call _ => (s.push s.advance.pc).stack
  | _ => s.stack

/-- The delay timer, before phase 5 (R18). -/
def State.dtAfter (s : State) : Instr → Byte
  | .ldDTVx x => s.reg x
  | _ => s.dt

/-- The sound timer, before phase 5 (R19). -/
def State.stAfter (s : State) : Instr → Byte
  | .ldSTVx x => s.reg x
  | _ => s.st

/-- Memory (R56). -/
def State.memAfter (s : State) : Instr → Memory
  | .ldB x => (s.storeDigits (s.reg x)).mem
  | .storeRegs x => (s.storeFirst (x.toNat + 1)).mem
  | _ => s.mem

/-- The framebuffer (R57). -/
def State.fbAfter (s : State) : Instr → Framebuffer
  | .cls => Vector.replicate 32 0
  | .drw x y n => (s.drawn x y n).fb
  | _ => s.fb

/-- The draw flag (R21, R84). -/
def State.drawAfter : Instr → Bool
  | .cls | .drw _ _ _ => true
  | _ => false

/-- The draw counter (R111). -/
def State.drawsAfter (s : State) : Instr → Nat
  | .rnd _ _ => s.draws + 1
  | _ => s.draws

/-- The state after phases 3 and 4 of an instruction that raises no fault (R80). -/
def State.complete (s : State) (i : Instr) : State :=
  { s with
    v := (s.writeRegs i).v
    pc := s.pcAfter i
    i := s.indexAfter i
    sp := s.spAfter i
    stack := s.stackAfter i
    dt := s.dtAfter i
    st := s.stAfter i
    mem := s.memAfter i
    fb := s.fbAfter i
    draw := State.drawAfter i
    unknown := false
    draws := s.drawsAfter i }

/-- The loop of stores sees neither `pc` nor the outputs, so the advance before it does not matter. -/
theorem State.storeFirst_advance (s : State) (k : Nat) : s.advance.storeFirst k = (s.storeFirst k).advance := by
  induction k with
  | zero => rfl
  | succ k ih => rw [State.storeFirst, ih, State.storeFirst]; rfl

/-- The loop of loads sees neither `pc` nor the outputs, so the advance before it does not matter. -/
theorem State.loadFirst_advance (s : State) (k : Nat) : s.advance.loadFirst k = (s.loadFirst k).advance := by
  induction k with
  | zero => rfl
  | succ k ih => rw [State.loadFirst, ih, State.loadFirst]; rfl

/-- What `exec` answers: a refusal, the fault of the pre-check, or the completed instruction. -/
theorem exec_eq (i : Instr) (s : State) :
    exec i s = if s.refuses i then .refused .spriteOffGrid
      else .next ((s.faultOf i).elim (s.complete i) fun c => s.raise c (encode i)) := by
  cases i
  case ret | call | skp | sknp | ldB =>
    simp only [exec, execRet, execCall, execSkp, execSknp, execLdB, State.faultOf]
    split <;> rfl
  case drw x y n =>
    simp only [exec, execDrw, State.faultOf, State.refuses, Bool.and_eq_true, decide_eq_true_eq]
    split
    · rfl
    · split <;> rfl
  case ldVxK x =>
    show execLdVxK x s =
      .next { s.advance with v := (s.takeKey x s.lowestKey).v, pc := (s.advance.takeKey x s.lowestKey).pc }
    unfold execLdVxK
    cases s.lowestKey <;> rfl
  case storeRegs x =>
    simp only [exec, execStoreRegs, State.faultOf, State.storeFirst_advance]
    split
    · rw [State.storeFirst_eq]; rfl
    · rfl
  case loadRegs x =>
    simp only [exec, execLoadRegs, State.faultOf, State.loadFirst_advance]
    split
    · rw [State.loadFirst_eq]; rfl
    · rfl
  all_goals rfl

/-- A range condition on numbers and the range test of R51 give the same DATA_RANGE. -/
theorem dataRange_code {s : State} (n : Nat) (P : Prop) [Decidable P] (h : P ↔ n ≠ 0 ∧ s.i.toNat + n - 1 > 4095) :
    (if P then some 2 else none) =
      (if s.cellsExist n then none else some FaultCause.dataRange).map fun c => c.code.toNat := by
  have hc := s.cellsExist_iff n
  by_cases hP : P
  · have := h.mp hP
    rw [if_pos hP, if_neg (by rw [hc]; omega)]; rfl
  · have := mt h.mpr hP
    rw [if_neg hP, if_pos (by rw [hc]; omega)]; rfl

/-- The table of R88 is the pre-check's, by code. -/
theorem faultCondition_eq (s : State) (i : Instr) :
    faultCondition s i = (s.faultOf i).map fun c => c.code.toNat := by
  cases i
  case drw x y n => exact dataRange_code n (n > 0 ∧ s.i.toNat + n - 1 > 4095) (by omega)
  case ldB x => exact dataRange_code 3 (s.i.toNat + 2 > 4095) (by omega)
  case storeRegs x | loadRegs x => exact dataRange_code (x.toNat + 1) (s.i.toNat + x.toNat > 4095) (by omega)
  case ret | call | skp | sknp =>
    simp only [faultCondition, State.faultOf]
    split <;> rfl
  all_goals rfl

/-- The two ways an instruction answers a next state (R88): it raised its own fault, or it completed. -/
theorem exec_cases {i : Instr} {s t : State} (h : exec i s = .next t) :
    (∃ c, faultCondition s i = some c.code.toNat ∧ t = s.raise c (encode i)) ∨
    (faultCondition s i = none ∧ t = s.complete i) := by
  rw [exec_eq] at h
  rw [faultCondition_eq]
  split at h
  · cases h
  · cases hc : s.faultOf i with
    | none => rw [hc] at h; cases h; exact .inr ⟨rfl, rfl⟩
    | some c => rw [hc] at h; cases h; exact .inl ⟨c, rfl, rfl⟩

end Sys2Proof.Machine
end

section
/-! SUPPORT. Who writes what: each piece of the completed state against the tables of R12 and of the named writers, and the
statements `RegistersWritten`, `OnlyTheNamedWriters` and `StepsKeepConfiguration`. -/

namespace Sys2Proof.Machine

variable {s : State} {i : Instr}

/-- A register and VF written, in either order, leave every other register alone (R113). -/
theorem State.reg_setReg_setReg_ne (s : State) {x y r : Reg} (h : ¬ (r = x ∨ r = y)) (b c : Byte) :
    ((s.setReg x b).setReg y c).reg r = s.reg r := by
  rw [State.reg_setReg_ne _ (not_or.mp h).2, State.reg_setReg_ne _ (not_or.mp h).1]

/-- R12, column "writes", for the completed instruction. -/
theorem State.reg_writeRegs_of_not_writesReg {r : Reg} (h : ¬ writesReg s r i) : (s.writeRegs i).reg r = s.reg r := by
  cases i
  case ldImm | addImm | ldReg | orReg | andReg | xorReg | rnd | drw | ldVxDT => exact s.reg_setReg_ne h _
  case addReg x y => exact s.reg_setReg_setReg_ne h _ _
  case subReg x y | subnReg x y | shr x y | shl x y => exact s.reg_setReg_setReg_ne (mt Or.symm h) _ _
  case ldVxK x =>
    show (s.takeKey x s.lowestKey).reg r = s.reg r
    cases hk : s.lowestKey with
    | none => rfl
    | some k =>
      obtain ⟨hlt, hdown, -⟩ := State.lowestKey_eq_some.mp hk
      exact s.reg_setReg_ne (fun e => h ⟨e, k, hlt, hdown⟩) _
  case loadRegs x =>
    have hx := x.isLt
    have hr : ¬ r.toNat ≤ x.toNat := h
    show (s.loadFirst (x.toNat + 1)).reg r = s.reg r
    rw [State.reg_loadFirst s _ (by omega), if_neg (by omega)]
  all_goals rfl

theorem State.indexAfter_of_not_mayChange (h : ¬ mayChange s i .index) : s.indexAfter i = s.i := by
  cases i
  case ldI a => exact absurd (.inl ⟨a, rfl⟩) h
  case addI x => exact absurd (.inr (.inl ⟨x, rfl⟩)) h
  case ldF x => exact absurd (.inr (.inr (.inl ⟨x, rfl⟩))) h
  case storeRegs x => exact if_neg fun q => h (.inr (.inr (.inr ⟨q, .inl ⟨x, rfl⟩⟩)))
  case loadRegs x => exact if_neg fun q => h (.inr (.inr (.inr ⟨q, .inr ⟨x, rfl⟩⟩)))
  all_goals rfl

theorem State.spAfter_of_not_mayChange (h : ¬ mayChange s i .sp) : s.spAfter i = s.sp := by
  unfold State.spAfter
  split
  · exact absurd (.inl rfl) h
  · exact absurd (.inr ⟨_, rfl⟩) h
  · rfl

theorem State.stackAfter_of_not_mayChange (h : ¬ mayChange s i .stack) : s.stackAfter i = s.stack := by
  unfold State.stackAfter
  split
  · exact absurd ⟨_, rfl⟩ h
  · rfl

theorem State.dtAfter_of_not_mayChange (h : ¬ mayChange s i .dt) : s.dtAfter i = s.dt := by
  unfold State.dtAfter
  split
  · exact absurd ⟨_, rfl⟩ h
  · rfl

theorem State.stAfter_of_not_mayChange (h : ¬ mayChange s i .st) : s.stAfter i = s.st := by
  unfold State.stAfter
  split
  · exact absurd ⟨_, rfl⟩ h
  · rfl

theorem State.memAfter_of_not_mayChange (h : ¬ mayChange s i .mem) : s.memAfter i = s.mem := by
  unfold State.memAfter
  split
  · exact absurd (.inl ⟨_, rfl⟩) h
  · exact absurd (.inr ⟨_, rfl⟩) h
  · rfl

theorem State.fbAfter_of_not_mayChange (h : ¬ mayChange s i .fb) : s.fbAfter i = s.fb := by
  unfold State.fbAfter
  split
  · exact absurd (.inl rfl) h
  · exact absurd (.inr ⟨_, _, _, rfl⟩) h
  · rfl

theorem State.drawsAfter_of_not_mayChange (h : ¬ mayChange s i .draws) : s.drawsAfter i = s.draws := by
  unfold State.drawsAfter
  split
  · exact absurd ⟨_, _, rfl⟩ h
  · rfl

/-- A completed instruction leaves every piece alone that the rules do not let it write. -/
theorem State.complete_same {p : Part} (h : ¬ mayChange s i p) : p.Same s (s.complete i) := by
  cases p
  case regs => exact fun r => State.reg_writeRegs_of_not_writesReg fun hr => h ⟨r, hr⟩
  case pc | draw | unknown => exact absurd trivial h
  case index => exact State.indexAfter_of_not_mayChange h
  case sp => exact State.spAfter_of_not_mayChange h
  case stack => exact fun k => congrArg (·[k]?.getD 0) (State.stackAfter_of_not_mayChange h)
  case dt => exact State.dtAfter_of_not_mayChange h
  case st => exact State.stAfter_of_not_mayChange h
  case mem => exact fun a => congrArg (Memory.read s.params · a) (State.memAfter_of_not_mayChange h)
  case fb => exact fun c r => congrArg (cellOn · (r * 64 + c)) (State.fbAfter_of_not_mayChange h)
  case draws => exact State.drawsAfter_of_not_mayChange h
  case fault => exact ⟨rfl, rfl, rfl⟩
  case beep | unknownWord | quirky | keypad | params => rfl

/-- An instruction whose fault condition holds may change all that entering a fault writes. -/
theorem mayChange_of_faultCondition (hf : faultCondition s i ≠ none) {p : Part}
    (hp : p ∈ [Part.fault, .draw, .beep, .unknown]) : mayChange s i p := by
  simp only [List.mem_cons, List.not_mem_nil, or_false] at hp
  rcases hp with rfl | rfl | rfl | rfl
  · exact hf
  · trivial
  · exact hf
  · trivial

/-- Settles O20: a fault writes no register, and a completed instruction those of its row only. -/
theorem registersWritten : Obligations.RegistersWritten := by
  intro i s t h r hr
  obtain ⟨c, -, rfl⟩ | ⟨-, rfl⟩ := exec_cases h
  · rfl
  · exact State.reg_writeRegs_of_not_writesReg hr

/-- Settles O22: the fault entry writes the record and the outputs, a completed instruction its own pieces. -/
theorem onlyTheNamedWriters : Obligations.OnlyTheNamedWriters := by
  intro i s t p h hp
  obtain ⟨c, hc, rfl⟩ | ⟨-, rfl⟩ := exec_cases h
  · obtain ⟨-, -, -, -, -, -, hsame⟩ := faulted_raise s c (encode i)
    exact hsame p fun hmem => hp (mayChange_of_faultCondition (by simp [hc]) hmem)
  · exact State.complete_same hp

/-- R15, R25, R30, R56 for the instruction that a step executes. -/
theorem Executes.keepsConfiguration {t : State} (hx : Executes s i) (he : exec i s = .next t) :
    t.quirky = s.quirky ∧ t.keypad = s.keypad ∧ t.params = s.params ∧
      ((∀ x, ¬ Executes s (.ldB x)) → (∀ x, ¬ Executes s (.storeRegs x)) → ∀ a, t.readByte a = s.readByte a) := by
  have keeps := fun p => onlyTheNamedWriters i s t p he
  refine ⟨keeps .quirky id, keeps .keypad id, keeps .params id, fun hB hS => keeps .mem ?_⟩
  rintro (⟨x, rfl⟩ | ⟨x, rfl⟩)
  · exact hB x hx
  · exact hS x hx

/-- Settles O23: of the ways a step can end only an instruction could change one of these pieces, and O22 says which
instruction does. -/
theorem stepsKeepConfiguration : Obligations.StepsKeepConfiguration := by
  intro s t hs
  cases step_cases hs with
  | halted _ e | fetchRange _ _ e | unknown _ _ _ _ _ e => subst e; exact ⟨rfl, rfl, rfl, fun _ _ _ => rfl⟩
  | completed h w i u hf hd he hu e =>
    subst e
    exact Executes.keepsConfiguration (t := u) ⟨h, w, hf, hd⟩ he
  | faulted h w i hf hd he ht => exact Executes.keepsConfiguration ⟨h, w, hf, hd⟩ he

end Sys2Proof.Machine
end

section
/-! SUPPORT. Who reads what: a second state `{ s with v := v }` that agrees with `s` on the registers of the column "reads"
of R12 goes the same way, and the statement `RegistersRead`. -/

namespace Sys2Proof.Machine

/-! ## What the other operations see of the register file -/

/-- The raster of a sprite depends on its origin, the framebuffer, memory and I only (R126). -/
theorem State.plotRows_with_v (s : State) (v : Vector Byte 16) (x0 y0 n : Nat) :
    ({ s with v := v } : State).plotRows x0 y0 n = s.plotRows x0 y0 n := by
  induction n with
  | zero => rfl
  | succ n ih => rw [State.plotRows, ih, State.plotRows]; rfl

/-- The loop of Fx55 depends on the registers it stores only (R119). -/
theorem State.storeFirst_mem_with_v {s : State} {v : Vector Byte 16} {k : Nat}
    (h : ∀ j < k, ({ s with v := v } : State).reg (BitVec.ofNat 4 j) = s.reg (BitVec.ofNat 4 j)) :
    (({ s with v := v } : State).storeFirst k).mem = (s.storeFirst k).mem := by
  induction k with
  | zero => rfl
  | succ k ih =>
    simp only [State.storeFirst, State.writeByte_mem, State.storeFirst_params]
    rw [ih fun j hj => h j (by omega), h k (by omega)]
    rfl

/-- One register write keeps two states in agreement on a register, and makes them agree on the one written. -/
theorem State.reg_setReg_congr {s t : State} {x r : Reg} {b : Byte} (h : r = x ∨ t.reg r = s.reg r) :
    (t.setReg x b).reg r = (s.setReg x b).reg r := by
  rw [State.reg_setReg, State.reg_setReg]
  split
  · rfl
  · exact h.resolve_left ‹_›

/-- The table of R12 does not look at the register file (R12). -/
theorem writesReg_with_v (s : State) (v : Vector Byte 16) (r : Reg) (i : Instr) :
    writesReg { s with v := v } r i = writesReg s r i := by cases i <;> rfl

/-- Replacing the register file changes no other piece. -/
theorem sameBut_regs_with_v (t : State) (v : Vector Byte 16) : SameBut [.regs] t { t with v := v } := by
  intro p hp
  cases p
  case regs => exact absurd (by decide) hp
  case fb => exact fun _ _ => rfl
  case stack | mem => exact fun _ => rfl
  case fault => exact ⟨rfl, rfl, rfl⟩
  all_goals rfl

/-- A sprite depends on the two registers that place it only (R126). -/
theorem State.drawn_with_v {s : State} {v : Vector Byte 16} {x y : Reg} (hx : ({ s with v := v } : State).reg x = s.reg x)
    (hy : ({ s with v := v } : State).reg y = s.reg y) (n : Nat) :
    ({ s with v := v } : State).drawn x y n = s.drawn x y n := by
  simp only [State.drawn, State.originX, State.originY, hx, hy, State.plotRows_with_v]

/-- The source of a shift is the register that the mode reads (R108, R110). -/
theorem State.shiftSource_with_v {s : State} {v : Vector Byte 16} {x y : Reg}
    (h : ∀ r, (if s.quirky then r = y else r = x) → ({ s with v := v } : State).reg r = s.reg r) :
    ({ s with v := v } : State).shiftSource x y = s.shiftSource x y := by
  unfold State.shiftSource
  show (if s.quirky then _ else _) = _
  cases hq : s.quirky
  · exact h x (by rw [hq]; rfl)
  · exact h y (by rw [hq]; rfl)

section Agree

variable {s : State} {v : Vector Byte 16} {i : Instr}
  (agree : ∀ r, readsReg s r i → ({ s with v := v } : State).reg r = s.reg r)

include agree

theorem State.refuses_with_v : ({ s with v := v } : State).refuses i = s.refuses i := by
  cases i
  case drw x y n =>
    simp only [State.refuses, State.overhangs, State.originX, State.originY, agree x (.inl rfl), agree y (.inr rfl)]
    rfl
  all_goals rfl

theorem State.faultOf_with_v : ({ s with v := v } : State).faultOf i = s.faultOf i := by
  cases i
  case skp x | sknp x => simp only [State.faultOf, agree x rfl]
  all_goals rfl

theorem State.pcAfter_with_v : ({ s with v := v } : State).pcAfter i = s.pcAfter i := by
  cases i
  case seImm x kk | sneImm x kk | skp x | sknp x => simp only [State.pcAfter, agree x rfl]; rfl
  case seReg x y | sneReg x y => simp only [State.pcAfter, agree x (.inl rfl), agree y (.inr rfl)]; rfl
  case jpV0 nnn => simp only [State.pcAfter, agree 0#4 rfl]
  case ldVxK x =>
    show (State.takeKey _ x s.lowestKey).pc = (State.takeKey _ x s.lowestKey).pc
    cases s.lowestKey <;> rfl
  all_goals rfl

theorem State.indexAfter_with_v : ({ s with v := v } : State).indexAfter i = s.indexAfter i := by
  cases i
  case addI x => exact congrArg (s.i + zext16 ·) (agree x rfl)
  case ldF x => exact congrArg s.glyphAddr (agree x rfl)
  all_goals rfl

theorem State.dtAfter_with_v : ({ s with v := v } : State).dtAfter i = s.dtAfter i := by
  cases i
  case ldDTVx x => exact agree x rfl
  all_goals rfl

theorem State.stAfter_with_v : ({ s with v := v } : State).stAfter i = s.stAfter i := by
  cases i
  case ldSTVx x => exact agree x rfl
  all_goals rfl

theorem State.fbAfter_with_v : ({ s with v := v } : State).fbAfter i = s.fbAfter i := by
  cases i
  case drw x y n => exact congrArg Raster.fb (State.drawn_with_v (agree x (.inl rfl)) (agree y (.inr rfl)) n)
  all_goals rfl

theorem State.memAfter_with_v : ({ s with v := v } : State).memAfter i = s.memAfter i := by
  cases i
  case ldB x => simp only [State.memAfter, agree x rfl]; rfl
  case storeRegs x =>
    refine State.storeFirst_mem_with_v fun j hj => agree _ ?_
    show (BitVec.ofNat 4 j).toNat ≤ x.toNat
    have := Nat.mod_le j (2 ^ 4)
    rw [BitVec.toNat_ofNat]
    omega
  all_goals rfl

/-- R12, both columns: the registers written hold the same bytes. -/
theorem State.reg_writeRegs_with_v {r : Reg} (hw : writesReg s r i) :
    (({ s with v := v } : State).writeRegs i).reg r = (s.writeRegs i).reg r := by
  cases i
  case ldImm x kk | rnd x kk | ldVxDT x => exact State.reg_setReg_congr (.inl hw)
  case addImm x kk =>
    simp only [State.writeRegs, agree x rfl]
    exact State.reg_setReg_congr (.inl hw)
  case ldReg x y =>
    simp only [State.writeRegs, agree y rfl]
    exact State.reg_setReg_congr (.inl hw)
  case orReg x y | andReg x y | xorReg x y =>
    simp only [State.writeRegs, agree x (.inl rfl), agree y (.inr rfl)]
    exact State.reg_setReg_congr (.inl hw)
  case addReg x y =>
    simp only [State.writeRegs, State.setFlag_eq, agree x (.inl rfl), agree y (.inr rfl)]
    exact State.reg_setReg_congr (hw.symm.imp_right fun e => State.reg_setReg_congr (.inl e))
  case subReg x y | subnReg x y =>
    simp only [State.writeRegs, State.setFlag_eq, agree x (.inl rfl), agree y (.inr rfl)]
    exact State.reg_setReg_congr (hw.imp_right fun e => State.reg_setReg_congr (.inl e))
  case shr x y | shl x y =>
    simp only [State.writeRegs, State.setFlag_eq, State.shiftSource_with_v agree]
    exact State.reg_setReg_congr (hw.imp_right fun e => State.reg_setReg_congr (.inl e))
  case drw x y n =>
    simp only [State.writeRegs, State.setFlag_eq, State.drawn_with_v (agree x (.inl rfl)) (agree y (.inr rfl))]
    exact State.reg_setReg_congr (.inl hw)
  case ldVxK x =>
    obtain ⟨hr, k, hlt, hdown⟩ := hw
    show (State.takeKey _ x s.lowestKey).reg r = (State.takeKey _ x s.lowestKey).reg r
    cases hk : s.lowestKey with
    | none => rw [State.lowestKey_eq_none.mp hk k hlt] at hdown; cases hdown
    | some j => exact State.reg_setReg_congr (.inl hr)
  case loadRegs x =>
    have hx := x.isLt
    have hr : r.toNat < x.toNat + 1 := Nat.lt_succ_of_le hw
    simp only [State.writeRegs]
    rw [State.reg_loadFirst _ _ (by omega), State.reg_loadFirst _ _ (by omega), if_pos hr, if_pos hr]
    rfl
  all_goals exact hw.elim

/-- R12, column "reads": outside the register file the completed states are one. -/
theorem State.complete_with_v :
    ({ s with v := v } : State).complete i = { s.complete i with v := (({ s with v := v } : State).writeRegs i).v } := by
  have hstack : ({ s with v := v } : State).stackAfter i = s.stackAfter i := by cases i <;> rfl
  simp only [State.complete, State.pcAfter_with_v agree, State.indexAfter_with_v agree, State.dtAfter_with_v agree,
    State.stAfter_with_v agree, State.memAfter_with_v agree, State.fbAfter_with_v agree, hstack]
  rfl

end Agree

/-- Settles O21: the second state takes the same one of the three ends of `exec_eq`; where it completes, the registers
written hold the same bytes and the rest is one state; where it faults, no register is written. -/
theorem registersRead : Obligations.RegistersRead := by
  intro i s t v agree h
  have h' := exec_eq i { s with v := v }
  rw [State.refuses_with_v agree, State.faultOf_with_v agree] at h'
  rw [exec_eq] at h
  rw [faultCondition_eq]
  cases hr : s.refuses i with
  | true => rw [hr] at h; cases h
  | false =>
    rw [hr] at h h'
    cases hc : s.faultOf i with
    | none =>
      rw [hc] at h h'
      cases h
      refine ⟨_, h', ?_, fun _ r hw => State.reg_writeRegs_with_v agree hw, fun r hn => ?_⟩
      · rw [Option.elim, State.complete_with_v agree]
        exact sameBut_regs_with_v _ _
      · have hw : ¬ writesReg s r i := hn.resolve_left fun hne => hne rfl
        exact State.reg_writeRegs_of_not_writesReg (by rwa [writesReg_with_v])
    | some c =>
      rw [hc] at h h'
      cases h
      exact ⟨_, h', sameBut_regs_with_v (s.raise c (encode i)) v, fun hnone => (by cases hnone), fun _ _ => rfl⟩

end Sys2Proof.Machine
end

section
/-! SUPPORT. What reset leaves: the statements `ResetMeetsInv` and `LaunchState`. -/

namespace Sys2Proof.Machine

@[simp] theorem State.reset_reg (r : Reg) : State.reset.reg r = 0 := Vector.getElem_replicate _

@[simp] theorem State.reset_stackAt (k : Nat) : State.reset.stackAt k = 0 := by
  show ((Vector.replicate 16 (0 : Word))[k]?).getD 0 = 0
  rw [Vector.getElem?_replicate]
  split <;> rfl

/-- Settles O18: every clause is about a field that reset sets. -/
theorem resetMeetsInv : Obligations.ResetMeetsInv where
  memory := rfl
  sp := by decide
  returns := fun k => by rw [State.reset_stackAt]; decide
  pc := by decide
  cause := by decide
  halted := fun h => absurd h (by decide)
  running := fun _ => ⟨rfl, rfl⟩
  outputs := by decide
  colours := by decide

/-- A launch that is not refused resets everything but the host's inputs, the ROM and the draw counter (R170 to R172). -/
theorem State.launch_eq {s : State} {p : Params} {rom : List Byte} {quirky : Bool} (hfit : rom.length ≤ 3584)
    (hcol : p.onColor ≠ p.offColor) :
    s.launch p rom quirky = .next { State.reset with
      mem := loadRom p rom 0x200 [], quirky := quirky, keypad := s.keypad, params := p, draws := s.draws } := by
  rw [State.launch, if_neg (by omega), if_neg hcol]

/-- The font copy ends below the ROM (R48). -/
theorem fontBase_addr_le (b : FontBase) : b.addr + 80 ≤ 0x200 := by cases b <;> decide

/-- The memory image of a launch: the font, the ROM at 0x200, and 0 elsewhere (R29, R46, R170). -/
theorem read_launch {p : Params} {rom : List Byte} (hfit : rom.length ≤ 3584) (a : Nat) :
    Memory.read p (loadRom p rom 0x200 []) a =
      if p.fontBase.addr ≤ a ∧ a < p.fontBase.addr + 80 then fontByte p (a - p.fontBase.addr)
      else if 0x200 ≤ a ∧ a < 0x200 + rom.length then rom.getD (a - 0x200) 0 else 0 := by
  have hfont := fontBase_addr_le p.fontBase
  rw [read_loadRom rfl (by omega)]
  show (if _ then _ else initByte p a) = _
  rw [initByte_eq]
  by_cases hrom : 0x200 ≤ a ∧ a < 0x200 + rom.length
  · rw [if_pos hrom, if_neg (by omega), if_pos hrom]
  · rw [if_neg hrom, if_neg hrom]

/-- Settles O26: the fields are those of `State.reset`, memory is `read_launch`. -/
theorem launchState : Obligations.LaunchState := by
  intro s p rom quirky hfit hcol
  exact ⟨_, State.launch_eq hfit hcol, State.reset_reg, rfl, rfl, rfl, State.reset_stackAt, rfl, rfl, rfl,
    fun c r => cellOn_clear (r * 64 + c), rfl, rfl, rfl, rfl, rfl, rfl, rfl, rfl, rfl, fun a _ => read_launch hfit a⟩

end Sys2Proof.Machine
end

section
/-! SUPPORT. What the fetch reads and what one store changes: the statements `FetchIsBigEndian`, `ReadAfterWrite` and
`PlacedWordIsFetched`. -/

namespace Sys2Proof

/-! ## The bytes of a word and their digits (R42, R61) -/

section Digits

variable (w : Word)

theorem opOf_toNat : (opOf w).toNat = (highByte w).toNat / 16 := by
  simp only [opOf, highByte, BitVec.extractLsb'_toNat, Nat.shiftRight_eq_div_pow]
  omega

theorem xOf_toNat : (xOf w).toNat = (highByte w).toNat % 16 := by
  simp only [xOf, highByte, BitVec.extractLsb'_toNat, Nat.shiftRight_eq_div_pow]
  omega

theorem yOf_toNat : (yOf w).toNat = (kkOf w).toNat / 16 := by
  simp only [yOf, kkOf, BitVec.extractLsb'_toNat, Nat.shiftRight_eq_div_pow]
  omega

theorem nOf_toNat : (nOf w).toNat = (kkOf w).toNat % 16 := by
  simp only [nOf, kkOf, BitVec.extractLsb'_toNat, Nat.shiftRight_eq_div_pow]
  omega

end Digits

@[simp] theorem highByte_wordOfBytes (hi lo : Byte) : highByte (wordOfBytes hi lo) = hi :=
  BitVec.extractLsb'_append_eq_left

@[simp] theorem kkOf_wordOfBytes (hi lo : Byte) : kkOf (wordOfBytes hi lo) = lo :=
  BitVec.extractLsb'_append_eq_right

namespace Machine

/-- Settles O6: `State.fetch_eq_some` gives the word, whose bytes are the two cells and whose digits are the bytes'. -/
theorem fetchIsBigEndian : Obligations.FetchIsBigEndian := by
  intro s
  refine ⟨fun hpc => ?_, State.fetch_eq_none.mpr⟩
  refine ⟨_, State.fetch_eq_some.mpr ⟨hpc, rfl⟩, wordOfBytes_toNat _ _, highByte_wordOfBytes _ _,
    kkOf_wordOfBytes _ _, ?_, ?_, ?_, ?_⟩
  · rw [opOf_toNat, highByte_wordOfBytes]
  · rw [xOf_toNat, highByte_wordOfBytes]
  · rw [yOf_toNat, kkOf_wordOfBytes]
  · rw [nOf_toNat, kkOf_wordOfBytes]

/-! ## One store (R45) -/

/-- A store changes memory and nothing else. -/
theorem sameBut_writeByte (s : State) (a : Nat) (b : Byte) : SameBut [.mem] s (s.writeByte a b) := by
  intro p hp
  cases p
  case mem => exact absurd (by decide) hp
  case regs | stack => exact fun _ => rfl
  case fb => exact fun _ _ => rfl
  case fault => exact ⟨rfl, rfl, rfl⟩
  all_goals rfl

theorem State.readByte_writeByte_self {s : State} (h : Memory.wf s.params s.mem = true) {a : Nat} (ha : a < 4096)
    (b : Byte) : (s.writeByte a b).readByte a = b := by
  rw [State.readByte_writeByte h, if_pos ⟨rfl, ha⟩]

theorem State.readByte_writeByte_ne {s : State} (h : Memory.wf s.params s.mem = true) {a k : Nat} (hne : k ≠ a)
    (b : Byte) : (s.writeByte a b).readByte k = s.readByte k := by
  rw [State.readByte_writeByte h, if_neg fun hk => hne hk.1]

/-- Settles O24: the laws of one store, at its own cell and at another, and its frame. -/
theorem readAfterWrite : Obligations.ReadAfterWrite := fun s a b hwf ha =>
  ⟨State.readByte_writeByte_self hwf ha b, fun _ hne => State.readByte_writeByte_ne hwf hne b, sameBut_writeByte s a b⟩

/-! ## The word the host places (R42, R81) -/

/-- Settles O25: the second store leaves the first one's cell alone, so the fetch joins the two bytes of the word again. -/
theorem placedWordIsFetched : Obligations.PlacedWordIsFetched := by
  intro s nbits w hwf hpc
  have hwf' := State.writeByte_wf hwf s.pc.toNat (highByte (tableWord nbits w))
  have hhigh : (s.withFetchWord nbits w).readByte s.pc.toNat = highByte (tableWord nbits w) := by
    rw [State.withFetchWord, State.readByte_writeByte_ne hwf' (by omega), State.readByte_writeByte_self hwf (by omega)]
  have hlow : (s.withFetchWord nbits w).readByte (s.pc.toNat + 1) = lowByte (tableWord nbits w) :=
    State.readByte_writeByte_self hwf' (by omega) _
  refine ⟨State.fetch_eq_some.mpr ⟨hpc, ?_⟩, (sameBut_writeByte s _ _).trans (sameBut_writeByte _ _ _)⟩
  show wordOfBytes ((s.withFetchWord nbits w).readByte s.pc.toNat)
    ((s.withFetchWord nbits w).readByte (s.pc.toNat + 1)) = tableWord nbits w
  rw [hhigh, hlow, wordOfBytes_high_low]

end Machine

end Sys2Proof
end

section
/-! SUPPORT. The decoder against the encoder: the statements `DecodeOfEncode`, `EncodeOfDecode` and
`ExampleWordsDecode`. -/

namespace Sys2Proof

/-! ## The decoder on the encoder's words -/

/-- Settles O1: the fields of the word in the format of the instruction's row are its operands, so the decoder's match on
the fixed digits finds the row again; the height of Dxyn fits its digit because the instruction is well formed. -/
theorem decodeOfEncode : Obligations.DecodeOfEncode := by
  intro i hwf
  cases i
  case cls | ret => rfl
  case drw x y n =>
    have hn : n < 16 := of_decide_eq_true hwf
    simp [encode, decode, Nat.mod_eq_of_lt hn]
  case ldReg | orReg | andReg | xorReg | addReg | subReg | shr | subnReg | shl => simp [encode, decode, decode8]
  case skp | sknp => simp [encode, decode, decodeE]
  case ldVxDT | ldVxK | ldDTVx | ldSTVx | addI | ldF | ldB | storeRegs | loadRegs => simp [encode, decode, decodeF]
  all_goals simp [encode, decode]

/-! ## A word rebuilt from the digits that the decoder matched -/

section Rebuild

variable {w : Word} {op : BitVec 4}

theorem formatA_of_op (h : opOf w = op) : formatA op (nnnOf w) = w := h ▸ formatA_fields w

theorem formatK_of_op (h : opOf w = op) : formatK op (xOf w) (kkOf w) = w := h ▸ formatK_fields w

theorem formatK_of_op_kk {kk : Byte} (h : opOf w = op) (hkk : kkOf w = kk) : formatK op (xOf w) kk = w :=
  hkk ▸ formatK_of_op h

theorem formatR_of_op_n {n : BitVec 4} (h : opOf w = op) (hn : nOf w = n) : formatR op (xOf w) (yOf w) n = w := by
  rw [← h, ← hn, formatR_fields]

theorem drw_wf (w : Word) : WellFormed (.drw (xOf w) (yOf w) (nOf w).toNat) := decide_eq_true (nOf w).isLt

theorem encode_drw_of_op (h : opOf w = 0xD#4) : encode (.drw (xOf w) (yOf w) (nOf w).toNat) = w := by
  rw [encode, BitVec.ofNat_toNat, BitVec.setWidth_eq]
  exact formatR_of_op_n h rfl

end Rebuild

/-! ## Everything the decoder can answer -/

/-- The answer of a decoder on `w`: a well-formed instruction that `w` encodes, or the report of `w` itself (R65). -/
def AnswersFor (w : Word) : Except Reject Instr → Prop
  | .ok i => WellFormed i ∧ encode i = w
  | .error e => e = .unknownWord w

variable {w : Word}

theorem decode0_answersFor : AnswersFor w (decode0 w) := by
  unfold decode0
  repeat' split
  · exact ⟨rfl, Eq.symm ‹_›⟩
  · exact ⟨rfl, Eq.symm ‹_›⟩
  · rfl

theorem decode8_answersFor (hop : opOf w = 0x8#4) : AnswersFor w (decode8 w) := by
  unfold decode8
  split
  case h_10 => rfl
  all_goals exact ⟨rfl, formatR_of_op_n hop (BitVec.eq_of_toNat_eq ‹_›)⟩

theorem decodeE_answersFor (hop : opOf w = 0xE#4) : AnswersFor w (decodeE w) := by
  unfold decodeE
  repeat' split
  case isFalse.isFalse => rfl
  all_goals exact ⟨rfl, formatK_of_op_kk hop ‹_›⟩

theorem decodeF_answersFor (hop : opOf w = 0xF#4) : AnswersFor w (decodeF w) := by
  unfold decodeF
  iterate 9
    split
    · exact ⟨rfl, formatK_of_op_kk hop ‹_›⟩
  rfl

/-- Each branch matched the fixed digits of its row exactly, so they and the operands make up the whole word (R64). -/
theorem decode_answersFor (w : Word) : AnswersFor w (decode w) := by
  unfold decode
  split
  case h_1 => exact decode0_answersFor
  case h_6 h | h_10 h =>
    split
    · exact ⟨rfl, formatR_of_op_n (BitVec.eq_of_toNat_eq h) ‹_›⟩
    · rfl
  case h_9 h => exact decode8_answersFor (BitVec.eq_of_toNat_eq h)
  case h_14 h => exact ⟨drw_wf w, encode_drw_of_op (BitVec.eq_of_toNat_eq h)⟩
  case h_15 h => exact decodeE_answersFor (BitVec.eq_of_toNat_eq h)
  case h_16 =>
    have hlt := (opOf w).isLt
    simp only [imp_false] at *
    have hop : (opOf w).toNat = 15 := by omega
    exact decodeF_answersFor (BitVec.eq_of_toNat_eq hop)
  case h_2 h | h_3 h | h_11 h | h_12 h => exact ⟨rfl, formatA_of_op (BitVec.eq_of_toNat_eq h)⟩
  all_goals exact ⟨rfl, formatK_of_op (BitVec.eq_of_toNat_eq ‹_›)⟩

/-- Settles O2: one of the two answers of `decode_answersFor`. -/
theorem encodeOfDecode : Obligations.EncodeOfDecode := by
  intro w i h
  have := decode_answersFor w
  rwa [h] at this

/-- A word that is no instruction is reported itself (R65). -/
theorem decode_error {e : Reject} (h : decode w = .error e) : e = .unknownWord w := by
  have := decode_answersFor w
  rwa [h] at this

/-- Settles O5: a word of an example is the word of its instruction; the decoder runs on the three unknown words. -/
theorem exampleWordsDecode : Obligations.ExampleWordsDecode :=
  ⟨decodeOfEncode .cls rfl, decodeOfEncode .ret rfl, decodeOfEncode (.call 0x300) rfl,
    decodeOfEncode (.seImm 3 0x2A) rfl, decodeOfEncode (.addReg 1 2) rfl, decodeOfEncode (.rnd 3 0x0F) rfl,
    decodeOfEncode (.ldI 0x300) rfl, decodeOfEncode (.storeRegs 2) rfl, decodeOfEncode (.drw 0 1 5) rfl,
    decodeOfEncode (.skp 2) rfl, decodeOfEncode (.ldVxK 3) rfl, decodeOfEncode (.ldVxDT 2) rfl, rfl, rfl, rfl⟩

end Sys2Proof
end

section
/-! SUPPORT. The decoder against the opcode table: the statements `DecodeMatchesTable` and `TableRowsDisjoint`. -/

namespace Sys2Proof

variable {w p : Word}

/-! ## Which fields a mask leaves (R63) -/

open Laws.RowOfEncoding

theorem opOf_of_covers (h : OpcodeRow.covers ⟨0xF000, p⟩ w = true) : opOf w = opOf p := by
  have hmask : w &&& 0xF000 = p := beq_iff_eq.mp h
  rw [← hmask, ← formatA_fields w, maskA, opOf_formatA, opOf_formatA]

theorem opOf_kkOf_of_covers (h : OpcodeRow.covers ⟨0xF0FF, p⟩ w = true) :
    opOf w = opOf p ∧ kkOf w = kkOf p := by
  have hmask : w &&& 0xF0FF = p := beq_iff_eq.mp h
  rw [← hmask, ← formatK_fields w, maskX]
  simp

theorem opOf_nOf_of_covers (h : OpcodeRow.covers ⟨0xF00F, p⟩ w = true) :
    opOf w = opOf p ∧ nOf w = nOf p := by
  have hmask : w &&& 0xF00F = p := beq_iff_eq.mp h
  rw [← hmask, ← formatR_fields w, maskR]
  simp

/-! ## Every row is one that the decoder reads (R63) -/

/-- Every word that the row covers decodes to an instruction of the row. -/
def OpcodeRow.Read (r : OpcodeRow) : Prop := ∀ w, r.covers w = true → ∃ i, decode w = .ok i ∧ i.row = r

/-- It is enough to find an instruction of the row that the word encodes. -/
theorem exists_decode_of_encode_eq {i : Instr} {r : OpcodeRow} (h : (WellFormed i ∧ i.row = r) ∧ encode i = w) :
    ∃ i, decode w = .ok i ∧ i.row = r := by
  obtain ⟨⟨hwf, hrow⟩, rfl⟩ := h
  exact ⟨i, decodeOfEncode i hwf, hrow⟩

/-- A row that fixes all 16 bits covers its pattern only. -/
theorem read_fixed (i : Instr) (hwf : WellFormed i) (hrow : i.row = ⟨0xFFFF, encode i⟩) :
    OpcodeRow.Read ⟨0xFFFF, encode i⟩ := by
  intro w h
  have hmask : w &&& BitVec.allOnes 16 = encode i := beq_iff_eq.mp h
  rw [BitVec.and_allOnes] at hmask
  exact exists_decode_of_encode_eq ⟨⟨hwf, hrow⟩, hmask.symm⟩

/-- A row of format A: `op` is fixed.  For every instruction of the shape the two premises hold by computation. -/
theorem read_formatA (f : Addr12 → Instr)
    (hf : ∀ a, WellFormed (f a) ∧ (f a).row = ⟨0xF000, p⟩ := by intros; exact ⟨rfl, rfl⟩)
    (henc : ∀ a, encode (f a) = formatA (opOf p) a := by intros; rfl) :
    OpcodeRow.Read ⟨0xF000, p⟩ := fun w h =>
  exists_decode_of_encode_eq ⟨hf (nnnOf w), (henc _).trans (formatA_of_op (opOf_of_covers h))⟩

/-- A row of format K: `op` is fixed. -/
theorem read_formatK (f : Reg → Byte → Instr)
    (hf : ∀ x kk, WellFormed (f x kk) ∧ (f x kk).row = ⟨0xF000, p⟩ := by intros; exact ⟨rfl, rfl⟩)
    (henc : ∀ x kk, encode (f x kk) = formatK (opOf p) x kk := by intros; rfl) :
    OpcodeRow.Read ⟨0xF000, p⟩ := fun w h =>
  exists_decode_of_encode_eq ⟨hf (xOf w) (kkOf w), (henc _ _).trans (formatK_of_op (opOf_of_covers h))⟩

/-- A row of format K in family E or F: `op` and `kk` are fixed. -/
theorem read_formatX (f : Reg → Instr)
    (hf : ∀ x, WellFormed (f x) ∧ (f x).row = ⟨0xF0FF, p⟩ := by intros; exact ⟨rfl, rfl⟩)
    (henc : ∀ x, encode (f x) = formatK (opOf p) x (kkOf p) := by intros; rfl) :
    OpcodeRow.Read ⟨0xF0FF, p⟩ := fun w h =>
  have ⟨hop, hkk⟩ := opOf_kkOf_of_covers h
  exists_decode_of_encode_eq ⟨hf (xOf w), (henc _).trans (formatK_of_op_kk hop hkk)⟩

/-- A row of format R: `op` and `n` are fixed. -/
theorem read_formatR (f : Reg → Reg → Instr)
    (hf : ∀ x y, WellFormed (f x y) ∧ (f x y).row = ⟨0xF00F, p⟩ := by intros; exact ⟨rfl, rfl⟩)
    (henc : ∀ x y, encode (f x y) = formatR (opOf p) x y (nOf p) := by intros; rfl) :
    OpcodeRow.Read ⟨0xF00F, p⟩ := fun w h =>
  have ⟨hop, hn⟩ := opOf_nOf_of_covers h
  exists_decode_of_encode_eq ⟨hf (xOf w) (yOf w), (henc _ _).trans (formatR_of_op_n hop hn)⟩

/-- The row of Dxyn, the only one of format D. -/
theorem read_drw : OpcodeRow.Read ⟨0xF000, 0xD000⟩ := fun w h =>
  exists_decode_of_encode_eq ⟨⟨drw_wf w, rfl⟩, encode_drw_of_op (opOf_of_covers h)⟩

theorem opcodeRows1_read : ∀ r ∈ opcodeRows1, r.Read := by
  simp only [opcodeRows1, List.forall_mem_cons]
  exact ⟨read_fixed .cls rfl rfl, read_fixed .ret rfl rfl,
    read_formatA .jp, read_formatA .call, read_formatK .seImm, read_formatK .sneImm, read_formatR .seReg,
    read_formatK .ldImm, read_formatK .addImm, read_formatR .ldReg, List.forall_mem_nil _⟩

theorem opcodeRows2_read : ∀ r ∈ opcodeRows2, r.Read := by
  simp only [opcodeRows2, List.forall_mem_cons]
  exact ⟨read_formatR .orReg, read_formatR .andReg, read_formatR .xorReg, read_formatR .addReg, read_formatR .subReg,
    read_formatR .shr, read_formatR .subnReg, read_formatR .shl, read_formatR .sneReg, read_formatA .ldI,
    read_formatA .jpV0, read_formatK .rnd, List.forall_mem_nil _⟩

theorem opcodeRows3_read : ∀ r ∈ opcodeRows3, r.Read := by
  simp only [opcodeRows3, List.forall_mem_cons]
  exact ⟨read_drw, read_formatX .skp, read_formatX .sknp, read_formatX .ldVxDT, read_formatX .ldVxK,
    read_formatX .ldDTVx, read_formatX .ldSTVx, read_formatX .addI, read_formatX .ldF, read_formatX .ldB,
    read_formatX .storeRegs, read_formatX .loadRegs, List.forall_mem_nil _⟩

theorem opcodeTable_read {r : OpcodeRow} (h : r ∈ opcodeTable) : r.Read := by
  obtain h12 | h3 := List.mem_append.mp h
  · exact (List.mem_append.mp h12).elim (opcodeRows1_read r) (opcodeRows2_read r)
  · exact opcodeRows3_read r h3

/-! ## The statements about the table -/

/-- Every instruction's word satisfies the instruction's row. -/
theorem rowOfEncoding : ∀ i : Instr, Statement i
  | .cls => cls | .ret => ret | .jp a => jp a | .call a => call a | .seImm x kk => seImm x kk
  | .sneImm x kk => sneImm x kk | .seReg x y => seReg x y | .ldImm x kk => ldImm x kk | .addImm x kk => addImm x kk
  | .ldReg x y => ldReg x y | .orReg x y => orReg x y | .andReg x y => andReg x y | .xorReg x y => xorReg x y
  | .addReg x y => addReg x y | .subReg x y => subReg x y | .shr x y => shr x y | .subnReg x y => subnReg x y
  | .shl x y => shl x y | .sneReg x y => sneReg x y | .ldI a => ldI a | .jpV0 a => jpV0 a | .rnd x kk => rnd x kk
  | .drw x y n => drw x y n | .skp x => skp x | .sknp x => sknp x | .ldVxDT x => ldVxDT x | .ldVxK x => ldVxK x
  | .ldDTVx x => ldDTVx x | .ldSTVx x => ldSTVx x | .addI x => addI x | .ldF x => ldF x | .ldB x => ldB x
  | .storeRegs x => storeRegs x | .loadRegs x => loadRegs x

/-- An instruction's own word satisfies its row, and what decodes is the instruction's own word. -/
theorem row_of_decode {i : Instr} (h : decode w = .ok i) : i.row ∈ opcodeTable ∧ i.row.covers w = true := by
  obtain ⟨-, rfl⟩ := encodeOfDecode w i h
  exact (rowOfEncoding i).symm

/-- An instruction would be of a row that covers the word, so nothing is left but the report (R65). -/
theorem decode_uncovered (h : ∀ r ∈ opcodeTable, r.covers w = false) : decode w = .error (.unknownWord w) := by
  cases hd : decode w with
  | error e => rw [decode_error hd]
  | ok i =>
    obtain ⟨hmem, hcov⟩ := row_of_decode hd
    rw [h _ hmem] at hcov
    cases hcov

/-- Settles O3: an instruction's word satisfies its row, every row is one that the decoder reads, and a word that
decodes is covered. -/
theorem decodeMatchesTable : Obligations.DecodeMatchesTable := fun w =>
  ⟨fun _ => row_of_decode, fun _ hr => opcodeTable_read hr w, decode_uncovered⟩

/-- Settles O4: the decoder answers one instruction for a word, whose row is every row that covers the word. -/
theorem tableRowsDisjoint : Obligations.TableRowsDisjoint := by
  refine ⟨rfl, fun w r hr r' hr' hcov hcov' => ?_⟩
  obtain ⟨i, hi, rfl⟩ := opcodeTable_read hr w hcov
  obtain ⟨j, hj, rfl⟩ := opcodeTable_read hr' w hcov'
  have hij : i = j := Except.ok.inj (hi.symm.trans hj)
  rw [hij]

end Sys2Proof
end

section
/-! SUPPORT. What an unknown word and phase 5 leave alone, and the statement `UnknownWordIsReportedNoOp`. -/

namespace Sys2Proof.Machine

/-- Phase 5 changes nothing but its three outputs (R86). -/
theorem sameBut_tick (s : State) : SameBut [.beep, .dt, .st] s s.tick := by
  intro p hp
  cases p
  case beep | dt | st => exact absurd (by decide) hp
  case regs | stack | mem => exact fun _ => rfl
  case fb => exact fun _ _ => rfl
  case fault => exact ⟨rfl, rfl, rfl⟩
  all_goals rfl

/-- An unknown word changes nothing but what the frame writes and the report (R85). -/
theorem sameBut_runUnknown (s : State) (w : Word) :
    SameBut [.pc, .draw, .unknown, .unknownWord] s (s.runUnknown w) := by
  intro p hp
  cases p
  case pc | draw | unknown | unknownWord => exact absurd (by decide) hp
  case regs | stack | mem => exact fun _ => rfl
  case fb => exact fun _ _ => rfl
  case fault => exact ⟨rfl, rfl, rfl⟩
  all_goals rfl

/-- Settles O9: the decoder reports a word that no row covers, so the step is the frame with the report, then phase 5. -/
theorem unknownWordIsReportedNoOp : Obligations.UnknownWordIsReportedNoOp := by
  intro s w hrun hfetch huncovered
  obtain ⟨hbeep, hdt, hst⟩ := (s.runUnknown w).tick_spec
  refine ⟨_, step_of_unknown hrun hfetch (decode_uncovered huncovered), s.pc_advance_toNat, rfl, rfl, rfl,
    Bool.eq_iff_iff.mpr (hbeep.trans decide_eq_true_iff.symm), hdt, hst, hrun, ?_⟩
  exact ((sameBut_runUnknown s w).mono (by decide)).trans ((sameBut_tick _).mono (by decide))

end Sys2Proof.Machine
end

section
/-! SUPPORT. The cycle around `exec`: the statements `StepRunsDecoded`, `FetchOutOfRangeFaults`, `HaltedStepClearsOutputs`
and `TimersCountEveryStep`. -/

namespace Sys2Proof.Machine

/-- A halted step changes nothing but the per-step outputs (R87). -/
theorem sameBut_idle (s : State) : SameBut [.draw, .beep, .unknown] s s.idle := by
  intro p hp
  cases p
  case draw | beep | unknown => exact absurd (by decide) hp
  case regs | stack | mem => exact fun _ => rfl
  case fb => exact fun _ _ => rfl
  case fault => exact ⟨rfl, rfl, rfl⟩
  all_goals rfl

/-- Settles O7: the two bytes at `pc` are the word fetched, and `endStep` passes on what `exec` answers. -/
theorem stepRunsDecoded : Obligations.StepRunsDecoded := by
  intro s i hrun hpc hd
  have hstep : step s = endStep (exec i s) := step_of_decode hrun (State.fetch_eq_some.mpr ⟨hpc, rfl⟩) hd
  refine ⟨fun t he => ?_, fun r he => ?_⟩
  · rw [hstep, he, endStep_next]
  · rw [hstep, he, endStep]

/-- Settles O8: nothing is fetched, so the step enters the fault of code 1 with no word. -/
theorem fetchOutOfRangeFaults : Obligations.FetchOutOfRangeFaults := fun s hrun hpc =>
  ⟨_, step_of_fetch_none hrun (State.fetch_eq_none.mpr hpc), faulted_raise s .fetchRange 0⟩

/-- Settles O11: the step of a halted block is `State.idle`. -/
theorem haltedStepClearsOutputs : Obligations.HaltedStepClearsOutputs := fun s hhalt =>
  ⟨_, step_of_halted hhalt, rfl, rfl, rfl, sameBut_idle s⟩

/-- Settles O10: an instruction and an unknown word both end in phase 5, of which `State.tick_spec` and `sameBut_tick`
say everything. -/
theorem timersCountEveryStep : Obligations.TimersCountEveryStep := by
  intro s u w hrun hfetch hok herr hu
  have hstep : step s = .next u.tick := by
    cases hd : decode w with
    | ok i => rw [step_of_decode hrun hfetch hd, hok i hd, endStep_next, hu]; rfl
    | error e => rw [herr e hd, step_of_unknown hrun hfetch (decode_error hd ▸ hd)]
  obtain ⟨hbeep, hdt, hst⟩ := u.tick_spec
  exact ⟨_, hstep, hbeep, hdt, hst, sameBut_tick u⟩

end Sys2Proof.Machine
end

section
/-! SUPPORT. The fault pre-check (R88): which of the three ends of `exec_eq` an instruction takes, and the statements
`FaultPreCheck`, `FaultingStepIsPrecise` and `EveryStepAnswers`. -/

namespace Sys2Proof.Machine

variable {s : State} {i : Instr}

/-! ## When no sprite is refused (R128) -/

theorem State.refuses_eq_false (h : ∀ x y n, i = .drw x y n → ¬ RefusedSprite s x y n) : s.refuses i = false := by
  cases i
  case drw x y n =>
    have hno := h x y n rfl
    rw [refusedSprite_iff] at hno
    simpa [State.refuses] using hno
  all_goals rfl

theorem State.refuses_of_edge (h : s.params.edge ≠ .fail) (i : Instr) : s.refuses i = false :=
  State.refuses_eq_false fun _ _ _ _ ⟨hfail, _⟩ => h hfail

/-! ## The two other ends -/

/-- An instruction whose fault condition holds enters that fault with its own word (R88, R152). -/
theorem exec_of_faultCondition {c : Nat} (hr : s.refuses i = false) (hc : faultCondition s i = some c) :
    ∃ f : FaultCause, f.code.toNat = c ∧ exec i s = .next (s.raise f (encode i)) := by
  rw [faultCondition_eq, Option.map_eq_some_iff] at hc
  obtain ⟨f, hf, hcode⟩ := hc
  refine ⟨f, hcode, ?_⟩
  rw [exec_eq, hr, hf]
  rfl

/-- An instruction whose fault condition does not hold completes (R88). -/
theorem exec_of_no_fault (hr : s.refuses i = false) (hc : faultCondition s i = none) :
    exec i s = .next (s.complete i) := by
  rw [faultCondition_eq, Option.map_eq_none_iff] at hc
  rw [exec_eq, hr, hc]
  rfl

/-- Settles O13: the record of a fault is `faulted_raise`, and completing writes no fault record. -/
theorem faultPreCheck : Obligations.FaultPreCheck := by
  intro i s hsprite
  have hr := State.refuses_eq_false hsprite
  refine ⟨fun c hc => ?_, fun hnone => ⟨_, exec_of_no_fault hr hnone, rfl, rfl, rfl⟩⟩
  obtain ⟨f, rfl, he⟩ := exec_of_faultCondition hr hc
  exact ⟨_, he, faulted_raise s f (encode i)⟩

/-- Settles O14: entering the fault halts, so phase 5 is left out; the word of the record is the one fetched, since a
decoded instruction encodes back to its word. -/
theorem faultingStepIsPrecise : Obligations.FaultingStepIsPrecise := by
  intro s w i c hsprite hrun hfetch hd hc
  obtain ⟨-, rfl⟩ := encodeOfDecode w i hd
  obtain ⟨f, rfl, he⟩ := exec_of_faultCondition (State.refuses_eq_false hsprite) hc
  refine ⟨s.raise f (encode i), ?_, faulted_raise s f _, s.halted_raise f _⟩
  rw [step_of_decode hrun hfetch hd, he, endStep_next, State.halted_raise]
  rfl

/-- An instruction that is not refused answers a next state (R88). -/
theorem exec_answers (hr : s.refuses i = false) : ∃ t, exec i s = .next t := by
  rw [exec_eq, hr]
  exact ⟨_, rfl⟩

/-- A refusal can only come from the instruction (R80). -/
theorem step_answers (h : ∀ i, ∃ t, exec i s = .next t) : ∃ t, step s = .next t := by
  cases hhalt : s.halted with
  | true => exact ⟨_, step_of_halted hhalt⟩
  | false =>
    cases hf : s.fetch with
    | none => exact ⟨_, step_of_fetch_none hhalt hf⟩
    | some w =>
      cases hd : decode w with
      | error e => exact ⟨_, step_of_unknown hhalt hf (decode_error hd ▸ hd)⟩
      | ok i =>
        obtain ⟨t, he⟩ := h i
        exact ⟨_, by rw [step_of_decode hhalt hf hd, he, endStep_next]⟩

/-- Settles O15: without the value `fail` nothing is refused. -/
theorem everyStepAnswers : Obligations.EveryStepAnswers := fun _ hedge =>
  have hexec := fun i => exec_answers (State.refuses_of_edge hedge i)
  ⟨hexec, step_answers hexec⟩

end Sys2Proof.Machine
end

section
/-! SUPPORT. The draw flag (R84): which instruction a step executes, and the statement `DrawFlagTellsTheStep`. -/

namespace Sys2Proof.Machine

variable {s : State} {w : Word} {i j : Instr}

/-- A step executes the instruction that the fetched word decodes to, and no other (R80). -/
theorem Executes.decode_eq (h : Executes s i) (hf : s.fetch = some w) : decode w = .ok i := by
  obtain ⟨-, w', hf', hd⟩ := h
  rwa [Option.some.inj (hf.symm.trans hf')]

theorem Executes.unique (h : Executes s i) (h' : Executes s j) : j = i := by
  obtain ⟨-, w, hf, hd⟩ := h
  exact Except.ok.inj ((h'.decode_eq hf).symm.trans hd)

theorem State.drawAfter_eq_true : State.drawAfter i = true ↔ i = .cls ∨ ∃ x y n, i = .drw x y n := by
  cases i <;> simp [State.drawAfter]

/-- The step executes one of the two instructions that draw (R84). -/
def State.Draws (s : State) : Prop := Executes s .cls ∨ ∃ x y n, Executes s (.drw x y n)

/-- The instruction executed decides whether the step draws. -/
theorem State.draws_iff (h : Executes s i) : s.Draws ↔ State.drawAfter i = true := by
  rw [State.drawAfter_eq_true]
  constructor
  · rintro (hcls | ⟨x, y, n, hdrw⟩)
    · exact .inl (hcls.unique h)
    · exact .inr ⟨x, y, n, hdrw.unique h⟩
  · rintro (rfl | ⟨x, y, n, rfl⟩)
    · exact .inl h
    · exact .inr ⟨x, y, n, h⟩

/-- An unknown word draws nothing (R85). -/
theorem State.not_draws_of_unknown {e : Reject} (hf : s.fetch = some w) (hd : decode w = .error e) : ¬ s.Draws := by
  have hno : ∀ i, ¬ Executes s i := fun i h => nomatch hd.symm.trans (h.decode_eq hf)
  rintro (h | ⟨x, y, n, h⟩)
  · exact hno _ h
  · exact hno _ h

/-- Settles O16: the steps that end halted have cleared the flag; of the others only a completed instruction can set it,
and it does when it is one of the two. -/
theorem drawFlagTellsTheStep : Obligations.DrawFlagTellsTheStep := by
  intro s t hs
  show t.draw = true ↔ t.halted = false ∧ s.Draws
  cases step_cases hs with
  | halted h e => subst e; simp [h]
  | fetchRange h hf e => subst e; simp
  | unknown h w u hf hd e => subst e; simp [State.not_draws_of_unknown hf hd]
  | completed h w i u hf hd he hu e =>
    obtain ⟨c, -, rfl⟩ | ⟨-, rfl⟩ := exec_cases he
    · simp at hu
    · subst e
      have hrun : (s.complete i).tick.halted = false := h
      exact (State.draws_iff ⟨h, w, hf, hd⟩).symm.trans (and_iff_right hrun).symm
  | faulted h w i hf hd he ht =>
    obtain ⟨c, -, rfl⟩ | ⟨-, rfl⟩ := exec_cases he
    · simp
    · have hrun : (s.complete i).halted = false := h
      rw [hrun] at ht
      cases ht

end Sys2Proof.Machine
end

section
/-! SUPPORT. Control transfer (R90 to R98): where each jump, call, return and skip goes, its frame, and the statements
`ReturnPops`, `JumpSetsPc`, `CallPushes`, `CallThenReturn`, `SkipOnImmediate`, `SkipOnRegisters` and
`JumpWithOffset`. -/

namespace Sys2Proof.Machine

variable {s : State}

/-! ## Targets as numbers -/

/-- An operand keeps its value when it is extended (R67). -/
theorem zext16_toNat {n : Nat} (hn : n ≤ 16) (a : BitVec n) : (zext16 a).toNat = a.toNat :=
  BitVec.toNat_setWidth_of_le hn

/-- The target of Bnnn is an exact sum: a byte and twelve bits cannot wrap (R97). -/
theorem toNat_jpV0_target (b : Byte) (nnn : Addr12) : (zext16 b + zext16 nnn).toNat = b.toNat + nnn.toNat := by
  have hb := zext16_toNat (by decide) b
  have ha := zext16_toNat (by decide) nnn
  rw [BitVec.toNat_add_of_lt (by omega), hb, ha]

/-- A skip on equality, on numbers (R93, R95). -/
theorem State.pc_skipIf_beq (s : State) (a b : Byte) :
    (s.advance.skipIf (a == b)).pc.toNat = (s.pc.toNat + if a.toNat = b.toNat then 4 else 2) % 65536 := by
  simp only [State.pc_skipIf_toNat, beq_iff_eq, BitVec.toNat_inj]

/-- A skip on difference, on numbers (R94, R96). -/
theorem State.pc_skipIf_bne (s : State) (a b : Byte) :
    (s.advance.skipIf (a != b)).pc.toNat = (s.pc.toNat + if a.toNat = b.toNat then 2 else 4) % 65536 := by
  simp only [State.pc_skipIf_toNat, bne_iff_ne, ne_eq, ite_not, BitVec.toNat_inj]

/-! ## The stack pointer -/

theorem State.sp_pred_toNat (h : s.sp ≠ 0) : (s.sp - 1).toNat = s.sp.toNat - 1 := by
  bv_omega

theorem State.sp_succ_toNat (h : s.sp.toNat ≤ 16) : (s.sp + 1).toNat = s.sp.toNat + 1 := by
  bv_omega

/-! ## RET -/

/-- RET with no return address held (R88, R90; D5). -/
theorem exec_ret_of_empty (h : s.sp = 0) : exec .ret s = .next (s.raise .stackUnderflow (encode .ret)) := if_pos h

/-- RET with a return address held (R90). -/
theorem exec_ret_of_held (h : s.sp ≠ 0) : exec .ret s = .next s.advance.pop := if_neg h

/-- A return moves `sp` and `pc` and leaves the popped entry where it is (R16, R90). -/
theorem sameBut_pop (s : State) : SameBut [.sp, .pc, .draw, .unknown] s s.advance.pop := by
  intro p hp
  cases p
  case sp | pc | draw | unknown => exact absurd (by decide) hp
  case regs | stack | mem => exact fun _ => rfl
  case fb => exact fun _ _ => rfl
  case fault => exact ⟨rfl, rfl, rfl⟩
  all_goals rfl

/-- Settles O29: the two cases of the pre-check, each with its frame. -/
theorem returnPops : Obligations.ReturnPops := by
  intro s
  refine ⟨rfl, fun hempty => ?_, fun hheld => ?_⟩
  · exact ⟨_, exec_ret_of_empty (BitVec.eq_of_toNat_eq hempty), faulted_raise s .stackUnderflow _⟩
  · have hne : s.sp ≠ 0 := fun h => hheld (congrArg BitVec.toNat h)
    have hsp := State.sp_pred_toNat hne
    exact ⟨_, exec_ret_of_held hne, hsp, congrArg s.stackAt hsp, rfl, rfl, sameBut_pop s⟩

/-! ## CALL -/

/-- CALL as it completes: the push of the address after it, then the jump (R92). -/
def State.callTo (s : State) (nnn : Addr12) : State := (s.advance.push s.advance.pc).setPc (zext16 nnn)

/-- CALL with 16 return addresses held (R88, R92; D5). -/
theorem exec_call_of_full {nnn : Addr12} (h : s.sp = 16) :
    exec (.call nnn) s = .next (s.raise .stackOverflow (encode (.call nnn))) := if_pos h

/-- CALL with room on the stack (R92). -/
theorem exec_call_of_room {nnn : Addr12} (h : s.sp.toNat < 16) : exec (.call nnn) s = .next (s.callTo nnn) :=
  if_neg fun hfull => absurd (congrArg BitVec.toNat hfull) (Nat.ne_of_lt h)

/-- A call pushes at the old `sp` (R92). -/
theorem State.stackAt_callTo (h : s.sp.toNat < 16) (nnn : Addr12) (k : Nat) :
    (s.callTo nnn).stackAt k = if k = s.sp.toNat then s.advance.pc else s.stackAt k := by
  have hpush := s.advance.stackAt_push s.advance.pc k
  simp only [State.advance_sp, h, and_true, State.advance_stackAt] at hpush
  exact hpush

/-- A call moves `sp` and `pc`, writes the stack, and nothing else (R92). -/
theorem sameBut_callTo (s : State) (nnn : Addr12) : SameBut [.sp, .stack, .pc, .draw, .unknown] s (s.callTo nnn) := by
  intro p hp
  cases p
  case sp | stack | pc | draw | unknown => exact absurd (by decide) hp
  case regs | mem => exact fun _ => rfl
  case fb => exact fun _ _ => rfl
  case fault => exact ⟨rfl, rfl, rfl⟩
  all_goals rfl

/-- Settles O31: the two cases of the pre-check; `State.stackAt_callTo` says what every entry holds. -/
theorem callPushes : Obligations.CallPushes := by
  intro nnn s
  refine ⟨formatA_toNat 0x2#4 nnn, fun hfull => ?_, fun hroom => ?_⟩
  · exact ⟨_, exec_call_of_full (BitVec.eq_of_toNat_eq hfull), faulted_raise s .stackOverflow _⟩
  · refine ⟨_, exec_call_of_room hroom, State.sp_succ_toNat (Nat.le_of_lt hroom), zext16_toNat (by decide) nnn, ?_,
      fun k hk => ?_, rfl, rfl, sameBut_callTo s nnn⟩
    · rw [State.stackAt_callTo hroom, if_pos rfl, State.pc_advance_toNat]
    · rw [State.stackAt_callTo hroom, if_neg hk]

/-! ## CALL, then RET -/

/-- A piece that turns out unchanged can be struck from a frame. -/
theorem SameBut.strike {p : Part} {changed : List Part} {s t : State} (h : SameBut (p :: changed) s t)
    (hp : p.Same s t) : SameBut changed s t := by
  intro q hq
  by_cases hqp : q = p
  · exact hqp ▸ hp
  · exact h q (List.not_mem_cons_of_ne_of_not_mem hqp hq)

/-- Settles O32: the pop reads the entry that the call pushed, and overwrites `pc`, wherever the subroutine ended. -/
theorem callThenReturn : Obligations.CallThenReturn := by
  intro nnn s ending hroom
  have hback : (s.callTo nnn).sp - 1 = s.sp := BitVec.add_sub_cancel s.sp 1
  have hheld : (s.callTo nnn).sp ≠ 0 := by
    show s.sp + 1 ≠ 0
    bv_omega
  have hframe : SameBut [.sp, .stack, .pc, .draw, .unknown] s (s.callTo nnn).advance.pop :=
    (sameBut_callTo s nnn).trans ((sameBut_pop _).mono (by decide))
  refine ⟨s.callTo nnn, (s.callTo nnn).advance.pop, exec_call_of_room hroom, exec_ret_of_held hheld, ?_, hback,
    fun k hk => ?_, (hframe.strike hback).mono (by decide)⟩
  · show ((s.callTo nnn).stackAt ((s.callTo nnn).sp - 1).toNat).toNat = _
    rw [hback, State.stackAt_callTo hroom, if_pos rfl, State.pc_advance_toNat]
  · show (s.callTo nnn).stackAt k = s.stackAt k
    rw [State.stackAt_callTo hroom, if_neg (Nat.ne_of_lt hk)]

/-! ## Jumps and skips -/

/-- Settles O30: the address keeps its value when it is extended; the frame is that of a jump. -/
theorem jumpSetsPc : Obligations.JumpSetsPc := fun nnn s =>
  ⟨formatA_toNat 0x1#4 nnn, _, rfl, zext16_toNat (by decide) nnn, onlyPc_setPc s _⟩

/-- Settles O35: the sum of a byte and twelve bits is exact. -/
theorem jumpWithOffset : Obligations.JumpWithOffset := fun nnn s =>
  ⟨formatA_toNat 0xB#4 nnn, _, rfl, toNat_jpV0_target _ nnn, onlyPc_setPc s _⟩

/-- Settles O33: the two skips, on equality and on difference, with the immediate as the second operand. -/
theorem skipOnImmediate : Obligations.SkipOnImmediate := fun x kk s =>
  ⟨formatK_toNat 0x3#4 x kk, formatK_toNat 0x4#4 x kk,
    ⟨_, rfl, onlyPc_skipIf s _, s.pc_skipIf_beq _ kk⟩, ⟨_, rfl, onlyPc_skipIf s _, s.pc_skipIf_bne _ kk⟩⟩

/-- Settles O34: the two skips, on equality and on difference, with a register as the second operand. -/
theorem skipOnRegisters : Obligations.SkipOnRegisters := fun x y s =>
  ⟨formatR_toNat 0x5#4 x y 0, formatR_toNat 0x9#4 x y 0,
    ⟨_, rfl, onlyPc_skipIf s _, s.pc_skipIf_beq _ _⟩, ⟨_, rfl, onlyPc_skipIf s _, s.pc_skipIf_bne _ _⟩⟩

end Sys2Proof.Machine
end

section
/-! SUPPORT. The invariant (R13, R16, R17, R24, R98, R151 to R153): each end of a step keeps it, and the statement
`StepKeepsInv`. -/

namespace Sys2Proof.Machine

variable {s : State} {i : Instr}

/-! ## The ends of a step that run no instruction -/

/-- A halted step clears the outputs, which a halted block does not show anyway (R87). -/
theorem Inv.idle (h : Inv s) : Inv s.idle where
  memory := h.memory
  sp := h.sp
  returns := h.returns
  pc := h.pc
  cause := h.cause
  halted := fun hhalt => ⟨(h.halted hhalt).1, rfl, rfl, rfl⟩
  running := h.running
  outputs := nofun
  colours := h.colours

/-- Entering a fault writes the record of the instruction at `pc` and halts there (R152). -/
theorem Inv.raise (h : Inv s) (c : FaultCause) (info : Word) : Inv (s.raise c info) where
  memory := h.memory
  sp := h.sp
  returns := h.returns
  pc := h.pc
  cause := c.code_le
  halted := fun _ => ⟨rfl, rfl, rfl, rfl⟩
  running := fun hrun => nomatch (s.halted_raise c info).symm.trans hrun
  outputs := nofun
  colours := h.colours

/-- Phase 5 of a running block changes only `beep` and the timers (R86). -/
theorem Inv.tick (h : Inv s) (hrun : s.halted = false) : Inv s.tick where
  memory := h.memory
  sp := h.sp
  returns := h.returns
  pc := h.pc
  cause := h.cause
  halted := fun hhalt => nomatch hrun.symm.trans hhalt
  running := h.running
  outputs := h.outputs
  colours := h.colours

/-- After a fetch the advance stays far below 0x10FE (R81, R98). -/
theorem State.pc_advance_le (hpc : s.pc.toNat ≤ 4094) : s.advance.pc.toNat ≤ 4096 := by
  have := s.pc_advance_toNat
  omega

/-- An unknown word advances and reports, and does not draw (R85). -/
theorem Inv.runUnknown (h : Inv s) (hrun : s.halted = false) (hpc : s.pc.toNat ≤ 4094) (w : Word) :
    Inv (s.runUnknown w) where
  memory := h.memory
  sp := h.sp
  returns := h.returns
  pc := Nat.le_trans (State.pc_advance_le hpc) (by decide)
  cause := h.cause
  halted := fun hhalt => nomatch hrun.symm.trans hhalt
  running := h.running
  outputs := nofun
  colours := h.colours

/-! ## What a completed instruction leaves -/

/-- Stores keep memory canonical. -/
theorem State.memAfter_wf (h : Memory.wf s.params s.mem = true) (i : Instr) :
    Memory.wf s.params (s.memAfter i) = true := by
  cases i
  case ldB x => exact State.storeDigits_wf h _
  case storeRegs x =>
    have hwf := State.storeFirst_wf h (x.toNat + 1)
    rwa [State.storeFirst_params] at hwf
  all_goals exact h

/-- Without the faults of D5 the stack pointer stays between 0 and 16 (R17, R90, R92). -/
theorem State.spAfter_le (h : s.sp.toNat ≤ 16) (hf : faultCondition s i = none) : (s.spAfter i).toNat ≤ 16 := by
  cases i
  case ret =>
    have hheld : s.sp ≠ 0 := fun he => nomatch (if_pos he).symm.trans hf
    show (s.sp - 1).toNat ≤ 16
    rw [State.sp_pred_toNat hheld]
    omega
  case call nnn =>
    have hroom : s.sp ≠ 16 := fun he => nomatch (if_pos he).symm.trans hf
    have hne : s.sp.toNat ≠ 16 := fun he => hroom (BitVec.eq_of_toNat_eq he)
    show (s.sp + 1).toNat ≤ 16
    rw [State.sp_succ_toNat h]
    omega
  all_goals exact h

/-- The one entry that CALL writes is the address after a fetched instruction (R92, R98). -/
theorem State.stackAt_complete_le (h : ∀ k, (s.stackAt k).toNat ≤ 4096) (hpc : s.pc.toNat ≤ 4094) (i : Instr)
    (k : Nat) : ((s.complete i).stackAt k).toNat ≤ 4096 := by
  cases i
  case call nnn =>
    show ((s.push s.advance.pc).stackAt k).toNat ≤ 4096
    rw [State.stackAt_push]
    split
    · exact State.pc_advance_le hpc
    · exact h k
  all_goals exact h k

/-- A skip goes at most four bytes on (R98). -/
theorem State.pc_skipIf_le (hpc : s.pc.toNat ≤ 4094) (c : Bool) : (s.advance.skipIf c).pc.toNat ≤ 0x10FE := by
  have h := s.pc_skipIf_toNat c
  split at h <;> omega

/-- Fx0A goes on or stays (R137). -/
theorem State.pc_takeKey_le (hpc : s.pc.toNat ≤ 4094) (x : Reg) (key : Option Nat) :
    (s.advance.takeKey x key).pc.toNat ≤ 0x10FE := by
  cases key with
  | some k => exact Nat.le_trans (State.pc_advance_le hpc) (by decide)
  | none =>
    have hback : s.pc + 2 - 2 = s.pc := BitVec.add_sub_cancel s.pc 2
    show (s.pc + 2 - 2).toNat ≤ 0x10FE
    rw [hback]
    omega

/-- No target lies above 0x10FE, which Bnnn reaches with V0 = 0xFF and nnn = 0xFFF (R98). -/
theorem State.pcAfter_le (h : ∀ k, (s.stackAt k).toNat ≤ 4096) (hpc : s.pc.toNat ≤ 4094) (i : Instr) :
    (s.pcAfter i).toNat ≤ 0x10FE := by
  cases i
  case ret => exact Nat.le_trans (h _) (by decide)
  case jp nnn | call nnn =>
    have := nnn.isLt
    show (zext16 nnn).toNat ≤ 0x10FE
    rw [zext16_toNat (by decide)]
    omega
  case jpV0 nnn =>
    have := nnn.isLt
    have := (s.reg 0#4).isLt
    show (zext16 (s.reg 0#4) + zext16 nnn).toNat ≤ 0x10FE
    rw [toNat_jpV0_target]
    omega
  case seImm | sneImm | seReg | sneReg | skp | sknp => exact State.pc_skipIf_le hpc _
  case ldVxK x => exact State.pc_takeKey_le hpc x _
  all_goals exact Nat.le_trans (State.pc_advance_le hpc) (by decide)

/-- A completed instruction keeps the invariant; `unknown` is cleared, and the fault record is left alone. -/
theorem Inv.complete (h : Inv s) (hrun : s.halted = false) (hpc : s.pc.toNat ≤ 4094) (hf : faultCondition s i = none) :
    Inv (s.complete i) where
  memory := State.memAfter_wf h.memory i
  sp := State.spAfter_le h.sp hf
  returns := State.stackAt_complete_le h.returns hpc i
  pc := State.pcAfter_le h.returns hpc i
  cause := h.cause
  halted := fun hhalt => nomatch hrun.symm.trans hhalt
  running := h.running
  outputs := fun hboth => nomatch hboth.2
  colours := h.colours

/-- What an instruction answers meets the invariant, whether it raised its fault or completed (R88). -/
theorem Inv.exec {t : State} (h : Inv s) (hrun : s.halted = false) (hpc : s.pc.toNat ≤ 4094)
    (he : Machine.exec i s = .next t) : Inv t := by
  obtain ⟨c, -, rfl⟩ | ⟨hf, rfl⟩ := exec_cases he
  · exact h.raise c _
  · exact h.complete hrun hpc hf

/-- Settles O17: each of the ways a step can end keeps the invariant; a fetched word bounds `pc` by 4094. -/
theorem stepKeepsInv : Obligations.StepKeepsInv := by
  intro s t h hs
  cases step_cases hs with
  | halted _ e => exact e ▸ h.idle
  | fetchRange _ _ e => exact e ▸ h.raise .fetchRange 0
  | unknown hrun w u hfetch _ e =>
    obtain ⟨hpc, -⟩ := State.fetch_eq_some.mp hfetch
    exact e ▸ (h.runUnknown hrun hpc u).tick hrun
  | completed hrun w i u hfetch _ he hu e =>
    obtain ⟨hpc, -⟩ := State.fetch_eq_some.mp hfetch
    exact e ▸ (h.exec hrun hpc he).tick hu
  | faulted hrun w i hfetch _ he _ =>
    obtain ⟨hpc, -⟩ := State.fetch_eq_some.mp hfetch
    exact h.exec hrun hpc he

end Sys2Proof.Machine
end

section
/-! SUPPORT. Register load and arithmetic (R100 to R113): each result and each flag as a number, what the two writes of a
flag-setting instruction leave, and the statements `LoadsCopy`, `AddImmediateWraps`, `LogicIsBitwise`, `AddWithCarry`,
`SubtractWithFlag`, `ReverseSubtractWithFlag`, `ShiftRight`, `ShiftLeft` and `RandomIsMasked`. -/

namespace Sys2Proof.Machine

variable {s : State}

/-! ## Words -/

/-- The words of the 8xyn family (R61, R63). -/
theorem formatR8_toNat (x y : Reg) (n : BitVec 4) :
    (formatR 0x8#4 x y n).toNat = 0x8000 + n.toNat + 256 * x.toNat + 16 * y.toNat := by
  rw [formatR_toNat, BitVec.toNat_ofNat]
  omega

/-! ## Results as numbers (R112) -/

theorem addByte_toNat (a b : Byte) : (addByte a b).toNat = (a.toNat + b.toNat) % 256 := BitVec.toNat_add a b

theorem subByte_toNat (a b : Byte) : (subByte a b).toNat = (a.toNat + 256 - b.toNat) % 256 := by
  have hb := b.isLt
  have h : (subByte a b).toNat = (256 - b.toNat + a.toNat) % 256 := BitVec.toNat_sub a b
  rw [h]
  congr 1
  omega

theorem shiftRight_toNat (a : Byte) : (shiftRight a).toNat = a.toNat / 2 := by
  rw [shiftRight, BitVec.toNat_ushiftRight, Nat.shiftRight_eq_div_pow, Nat.pow_one]

theorem shiftLeft_toNat (a : Byte) : (shiftLeft a).toNat = a.toNat * 2 % 256 := by
  rw [shiftLeft, BitVec.toNat_shiftLeft, Nat.shiftLeft_eq, Nat.pow_one]

/-! ## Flags as numbers (R32, R112) -/

theorem flagByte_decide_toNat (p : Prop) [Decidable p] : (flagByte (decide p)).toNat = if p then 1 else 0 := by
  simp only [flagByte_toNat, decide_eq_true_eq]

theorem flagByte_carryOut_toNat (a b : Byte) :
    (flagByte (carryOut a b)).toNat = if a.toNat + b.toNat > 255 then 1 else 0 := flagByte_decide_toNat _

theorem flagByte_noBorrow_toNat (a b : Byte) :
    (flagByte (noBorrow a b)).toNat = if a.toNat > b.toNat then 1 else 0 := flagByte_decide_toNat _

/-- The bit that a right shift drops is the low one (R108). -/
theorem flagByte_shiftedOutRight_toNat (a : Byte) : (flagByte (shiftedOutRight a)).toNat = a.toNat % 2 := by
  rw [shiftedOutRight, flagByte_decide_toNat]
  split <;> omega

/-- The bit that a left shift drops is the high one (R110). -/
theorem flagByte_shiftedOutLeft_toNat (a : Byte) : (flagByte (shiftedOutLeft a)).toNat = a.toNat / 128 := by
  have ha := a.isLt
  rw [shiftedOutLeft, flagByte_decide_toNat]
  split <;> omega

/-! ## What the two writes leave (R113) -/

/-- The register, then VF: VF holds the flag, and the register its result unless it is VF (R106). -/
theorem State.reads_setReg_setFlag (s : State) (x : Reg) {b : Byte} {f : Bool} {n m : Nat}
    (hf : (flagByte f).toNat = m) (hb : b.toNat = n) :
    (((s.setReg x b).setFlag f).reg regF).toNat = m ∧
      (x ≠ regF → (((s.setReg x b).setFlag f).reg x).toNat = n) := by
  rw [State.setFlag_eq]
  refine ⟨by rw [State.reg_setReg_self, hf], fun hx => ?_⟩
  rw [State.reg_setReg_ne _ hx, State.reg_setReg_self, hb]

/-- VF, then the register: the register holds its result, and VF the flag unless it is that register (R107 to R110). -/
theorem State.reads_setFlag_setReg (s : State) (x : Reg) {b : Byte} {f : Bool} {n m : Nat}
    (hb : b.toNat = n) (hf : (flagByte f).toNat = m) :
    (((s.setFlag f).setReg x b).reg x).toNat = n ∧
      (x ≠ regF → (((s.setFlag f).setReg x b).reg regF).toNat = m) := by
  rw [State.setFlag_eq]
  refine ⟨by rw [State.reg_setReg_self, hb], fun hx => ?_⟩
  rw [State.reg_setReg_ne _ hx.symm, State.reg_setReg_self, hf]

/-! ## Shifts (R108, R110) -/

theorem State.shiftSource_of_plain (h : s.quirky = false) (x y : Reg) : s.shiftSource x y = s.reg x := by
  rw [State.shiftSource, h, if_neg Bool.false_ne_true]

theorem State.shiftSource_of_quirky (h : s.quirky = true) (x y : Reg) : s.shiftSource x y = s.reg y := by
  rw [State.shiftSource, h, if_pos rfl]

/-- A shift in the two modes, which differ in the source alone; `result` and `bit` are the number shifted and the bit
that falls out. -/
theorem State.reads_shift {t : State} {x y : Reg} {shift : Byte → Byte} {out : Byte → Bool}
    (ht : t = (s.advance.setFlag (out (s.shiftSource x y))).setReg x (shift (s.shiftSource x y)))
    (result bit : Nat → Nat) (hresult : ∀ a, (shift a).toNat = result a.toNat)
    (hbit : ∀ a, (flagByte (out a)).toNat = bit a.toNat) :
    (s.quirky = false → (t.reg x).toNat = result (s.reg x).toNat ∧
      (x ≠ regF → (t.reg regF).toNat = bit (s.reg x).toNat)) ∧
    (s.quirky = true → (t.reg x).toNat = result (s.reg y).toNat ∧
      (x ≠ regF → (t.reg regF).toNat = bit (s.reg y).toNat)) := by
  have hreads := s.advance.reads_setFlag_setReg x (hresult (s.shiftSource x y)) (hbit (s.shiftSource x y))
  rw [← ht] at hreads
  refine ⟨fun hplain => ?_, fun hquirky => ?_⟩
  · rwa [State.shiftSource_of_plain hplain] at hreads
  · rwa [State.shiftSource_of_quirky hquirky] at hreads

/-! ## Flag-setting instructions -/

/-- Settles O39: the sum is written first, so VF holds the carry for `x = 15` too. -/
theorem addWithCarry : Obligations.AddWithCarry := fun x y s =>
  ⟨formatR8_toNat x y 4, _, rfl, onlyRegs_setReg_setFlag s x _ _,
    s.advance.reads_setReg_setFlag x (flagByte_carryOut_toNat _ _) (addByte_toNat _ _)⟩

/-- Settles O40: the flag is written first, so the difference remains for `x = 15`. -/
theorem subtractWithFlag : Obligations.SubtractWithFlag := fun x y s =>
  ⟨formatR8_toNat x y 5, _, rfl, onlyRegs_setFlag_setReg s x _ _,
    s.advance.reads_setFlag_setReg x (subByte_toNat _ _) (flagByte_noBorrow_toNat _ _)⟩

/-- Settles O41: as O40, with the operands exchanged in the difference and in the comparison. -/
theorem reverseSubtractWithFlag : Obligations.ReverseSubtractWithFlag := fun x y s =>
  ⟨formatR8_toNat x y 7, _, rfl, onlyRegs_setFlag_setReg s x _ _,
    s.advance.reads_setFlag_setReg x (subByte_toNat _ _) (flagByte_noBorrow_toNat _ _)⟩

/-! `shiftRight` and `shiftLeft` are the model's names for the results, so the two theorems stand in a namespace. -/

namespace Shifts

/-- Settles O42: halving drops the low bit. -/
theorem shiftRight : Obligations.ShiftRight := fun x y s =>
  ⟨formatR8_toNat x y 6, _, rfl, onlyRegs_setFlag_setReg s x _ _,
    State.reads_shift rfl (· / 2) (· % 2) shiftRight_toNat flagByte_shiftedOutRight_toNat⟩

/-- Settles O43: doubling modulo 256 drops the high bit, and the flag is that bit as 0 or 1. -/
theorem shiftLeft : Obligations.ShiftLeft := fun x y s =>
  ⟨formatR8_toNat x y 0xE, _, rfl, onlyRegs_setFlag_setReg s x _ _,
    State.reads_shift rfl (· * 2 % 256) (· / 128) shiftLeft_toNat flagByte_shiftedOutLeft_toNat⟩

end Shifts

/-! ## Instructions that write one register -/

/-- Settles O36: one register written each, with the immediate or with the other register's byte. -/
theorem loadsCopy : Obligations.LoadsCopy := fun x y kk s =>
  ⟨formatK_toNat 0x6#4 x kk, formatR8_toNat x y 0,
    ⟨_, rfl, State.reg_setReg_self _ x _, onlyRegs_setReg s x _⟩,
    ⟨_, rfl, State.reg_setReg_self _ x _, onlyRegs_setReg s x _⟩⟩

/-- Settles O37: the sum wraps at the width of the byte, and the one register written is `x`. -/
theorem addImmediateWraps : Obligations.AddImmediateWraps := by
  intro x kk s
  refine ⟨formatK_toNat 0x7#4 x kk, _, rfl, ?_, onlyRegs_setReg s x _⟩
  rw [State.reg_setReg_self, addByte_toNat]

/-- Settles O38: the three operations are those of the bits, and the one register written is `x`. -/
theorem logicIsBitwise : Obligations.LogicIsBitwise := by
  intro x y s
  refine ⟨formatR8_toNat x y 1, formatR8_toNat x y 2, formatR8_toNat x y 3,
    ⟨_, rfl, onlyRegs_setReg s x _, fun k => ?or⟩, ⟨_, rfl, onlyRegs_setReg s x _, fun k => ?and⟩,
    ⟨_, rfl, onlyRegs_setReg s x _, fun k => ?xor⟩⟩
  case or => rw [State.reg_setReg_self, BitVec.getLsbD_or]
  case and => rw [State.reg_setReg_self, BitVec.getLsbD_and]
  case xor => rw [State.reg_setReg_self, BitVec.getLsbD_xor]

/-! ## The random byte (R26, R111) -/

/-- Counting a draw changes nothing else. -/
theorem sameBut_draws (s : State) (n : Nat) : SameBut [.draws] s { s with draws := n } := by
  intro p hp
  cases p
  case draws => exact absurd (by decide) hp
  case regs | stack | mem => exact fun _ => rfl
  case fb => exact fun _ _ => rfl
  case fault => exact ⟨rfl, rfl, rfl⟩
  all_goals rfl

/-- Settles O44: one register write, then the count of the draw; a masked byte is at most its mask. -/
theorem randomIsMasked : Obligations.RandomIsMasked := by
  intro x kk s
  obtain ⟨hregs, hadv, hframe⟩ := onlyRegs_setReg s x (Config.rnd s.draws &&& kk)
  have hread : (s.advance.setReg x (Config.rnd s.draws &&& kk)).reg x = Config.rnd s.draws &&& kk :=
    State.reg_setReg_self _ x _
  refine ⟨formatK_toNat 0xC#4 x kk, _, rfl, fun k => ?_, ?_, rfl, fun r hr => ?_, hadv, ?_⟩
  · exact (congrArg (BitVec.getLsbD · k) hread).trans BitVec.getLsbD_and
  · exact (congrArg BitVec.toNat hread).trans_le Nat.and_le_right
  · exact hregs r (by simpa using hr)
  · exact (hframe.mono (by decide)).trans ((sameBut_draws _ _).mono (by decide))

end Sys2Proof.Machine
end

section
/-! SUPPORT. Index register and memory (R115 to R121): the frames of a new I, of the stores and of the loads, the values
they leave, and the statements `IndexIsSet`, `DecimalDigitsStored`, `RegistersStored`, `RegistersLoaded` and
`StoreThenLoadRestores`. -/

namespace Sys2Proof.Machine

variable {s : State}

/-! ## Frames -/

/-- An instruction whose execute phase leaves `pc` and the two outputs alone ends where the advance put them, and
changes nothing but what its execute phase and the advance change (R82, R84). -/
theorem SameBut.after_advance {changed : List Part} {t : State} (h : SameBut changed s.advance t)
    (hfree : ∀ p ∈ [Part.pc, .draw, .unknown], p ∉ changed) :
    Advanced s t ∧ SameBut (changed ++ [.pc, .draw, .unknown]) s t := by
  have hpc : t.pc = s.advance.pc := h .pc (hfree _ (by decide))
  have hdraw : t.draw = false := h .draw (hfree _ (by decide))
  have hunknown : t.unknown = false := h .unknown (hfree _ (by decide))
  refine ⟨⟨hpc ▸ s.pc_advance_toNat, hdraw, hunknown⟩, fun p hp => ?_⟩
  have hsame := h p fun hmem => hp (List.mem_append_left _ hmem)
  cases p
  case pc | draw | unknown => exact absurd (List.mem_append_right changed (by decide)) hp
  all_goals exact hsame

/-- A new I changes nothing else (R14). -/
theorem sameBut_setI (s : State) (w : Word) : SameBut [.index] s (s.setI w) := by
  intro p hp
  cases p
  case index => exact absurd (by decide) hp
  case regs | stack | mem => exact fun _ => rfl
  case fb => exact fun _ _ => rfl
  case fault => exact ⟨rfl, rfl, rfl⟩
  all_goals rfl

/-- Replacing memory changes no other piece. -/
theorem sameBut_mem_with_mem (s : State) (m : Memory) : SameBut [.mem] s { s with mem := m } := by
  intro p hp
  cases p
  case mem => exact absurd (by decide) hp
  case regs | stack => exact fun _ => rfl
  case fb => exact fun _ _ => rfl
  case fault => exact ⟨rfl, rfl, rfl⟩
  all_goals rfl

/-- The three stores of Fx33 change memory only (R118). -/
theorem sameBut_storeDigits (s : State) (b : Byte) : SameBut [.mem] s (s.storeDigits b) := sameBut_mem_with_mem s _

/-- The loop of Fx55 changes memory only (R119). -/
theorem sameBut_storeFirst (s : State) (k : Nat) : SameBut [.mem] s (s.storeFirst k) := by
  rw [State.storeFirst_eq]
  exact sameBut_mem_with_mem s _

/-- The loop of Fx65 changes registers only (R120). -/
theorem sameBut_loadFirst (s : State) (k : Nat) : SameBut [.regs] s (s.loadFirst k) := by
  rw [State.loadFirst_eq]
  exact sameBut_regs_with_v s _

/-- A loop that changes one piece, then a new I: Fx55 and Fx65 after the advance (R119, R120). -/
theorem SameBut.then_setI {p : Part} {t : State} (h : SameBut [p] s t) (w : Word) :
    SameBut [p, .index] s (t.setI w) :=
  (h.mono fun _ hq => List.mem_append_left [.index] hq).trans
    ((sameBut_setI t w).mono fun _ hq => List.mem_append_right [p] hq)

/-! ## Values as numbers -/

/-- The words of the F family (R61, R63). -/
theorem formatKF_toNat (x : Reg) (kk : Byte) : (formatK 0xF#4 x kk).toNat = 0xF000 + kk.toNat + 256 * x.toNat := by
  rw [formatK_toNat, BitVec.toNat_ofNat]
  omega

/-- I is advanced past the last cell in quirky mode only (R119, R120). -/
theorem State.bulkIndex_toNat (s : State) (x : Reg) :
    (s.bulkIndex x).toNat = if s.quirky then (s.i.toNat + x.toNat + 1) % 65536 else s.i.toNat := by
  unfold State.bulkIndex
  split
  · rw [BitVec.toNat_add, BitVec.toNat_add, zext16_toNat (by decide), Nat.mod_add_mod]
    rfl
  · rfl

theorem hundreds_toNat (b : Byte) : (hundreds b).toNat = b.toNat / 100 := by
  rw [hundreds, BitVec.toNat_ofNat]
  omega

theorem tens_toNat (b : Byte) : (tens b).toNat = b.toNat / 10 % 10 := by
  rw [tens, BitVec.toNat_ofNat]
  omega

theorem ones_toNat (b : Byte) : (ones b).toNat = b.toNat % 10 := by
  rw [ones, BitVec.toNat_ofNat]
  omega

/-! ## Setting I (R115 to R117) -/

/-- I set after the advance, with the frame. -/
theorem advanced_setI (s : State) (w : Word) :
    Advanced s (s.advance.setI w) ∧ SameBut [.index, .pc, .draw, .unknown] s (s.advance.setI w) :=
  (sameBut_setI s.advance w).after_advance (by decide)

/-- Settles O45: the three values as numbers; a 16-bit sum wraps at 65536 and at nothing less. -/
theorem indexIsSet : Obligations.IndexIsSet := by
  intro nnn x s
  refine ⟨formatA_toNat 0xA#4 nnn, formatKF_toNat x 0x1E#8, formatKF_toNat x 0x29#8,
    ⟨_, rfl, zext16_toNat (by decide) nnn, advanced_setI s _⟩, ⟨_, rfl, ?_, advanced_setI s _⟩,
    ⟨_, rfl, BitVec.toNat_ofNat _ 16, advanced_setI s _⟩⟩
  rw [State.setI_i, BitVec.toNat_add, zext16_toNat (by decide)]

/-! ## The data instructions in range (R118 to R121) -/

theorem exec_ldB_of_range {x : Reg} (h : s.i.toNat ≤ 4093) :
    exec (.ldB x) s = .next (s.advance.storeDigits (s.reg x)) :=
  if_pos ((s.cellsExist_iff 3).mpr (by omega))

theorem exec_storeRegs_of_range {x : Reg} (h : s.i.toNat + x.toNat ≤ 4095) :
    exec (.storeRegs x) s = .next ((s.advance.storeFirst (x.toNat + 1)).setI (s.bulkIndex x)) :=
  if_pos ((s.cellsExist_iff _).mpr (by omega))

theorem exec_loadRegs_of_range {x : Reg} (h : s.i.toNat + x.toNat ≤ 4095) :
    exec (.loadRegs x) s = .next ((s.advance.loadFirst (x.toNat + 1)).setI (s.bulkIndex x)) :=
  if_pos ((s.cellsExist_iff _).mpr (by omega))

/-- DATA_RANGE, by the pre-check of R88: no sprite can be refused, and the address condition is the instruction's. -/
theorem exec_of_dataRange {i : Instr} (hi : ∀ x y n, i ≠ .drw x y n) (hc : faultCondition s i = some 2) :
    ∃ t, exec i s = .next t ∧ Faulted 2 (encode i) s t :=
  (faultPreCheck i s fun x y n h => absurd h (hi x y n)).1 2 hc

/-! ## Fx33 -/

/-- The three cells of Fx33 are told apart by their addresses (R118). -/
theorem State.reads_storeDigits (hwf : Memory.wf s.params s.mem = true) (hin : s.i.toNat ≤ 4093) (b : Byte) :
    ((s.storeDigits b).readByte (s.dataAddr 0)).toNat = b.toNat / 100 ∧
      ((s.storeDigits b).readByte (s.dataAddr 1)).toNat = b.toNat / 10 % 10 ∧
      ((s.storeDigits b).readByte (s.dataAddr 2)).toNat = b.toNat % 10 ∧
      ∀ a, a < s.dataAddr 0 ∨ s.dataAddr 2 < a → (s.storeDigits b).readByte a = s.readByte a := by
  have hread := fun a => State.readByte_storeDigits hwf b a (by omega)
  simp only [State.dataAddr, hread]
  refine ⟨?_, ?_, ?_, fun a ha => ?_⟩
  · rw [if_pos (by omega), hundreds_toNat]
  · rw [if_neg (by omega), if_pos trivial, tens_toNat]
  · rw [if_neg (by omega), if_neg (by omega), if_pos trivial, ones_toNat]
  · rw [if_neg (by omega), if_neg (by omega), if_neg (by omega)]

/-- Settles O46: DATA_RANGE by the pre-check, else the three stores, which see no advance. -/
theorem decimalDigitsStored : Obligations.DecimalDigitsStored := by
  intro x s hwf
  refine ⟨formatKF_toNat x 0x33#8, fun hout => exec_of_dataRange nofun (if_pos (by omega)), fun hin => ?_⟩
  obtain ⟨hadv, hframe⟩ := (sameBut_storeDigits s.advance (s.reg x)).after_advance (by decide)
  obtain ⟨hhundreds, htens, hones, hother⟩ := State.reads_storeDigits (s := s.advance) hwf hin (s.reg x)
  exact ⟨_, exec_ldB_of_range hin, hadv, hhundreds, htens, hones, hother, hframe⟩

/-! ## Fx55 -/

/-- Every register up to `x` has its cell in the range of Fx55 (R119). -/
theorem State.readByte_storeFirst_dataAddr (hwf : Memory.wf s.params s.mem = true) {x r : Reg}
    (hin : s.i.toNat + x.toNat ≤ 4095) (hr : r.toNat ≤ x.toNat) :
    (s.storeFirst (x.toNat + 1)).readByte (s.dataAddr r.toNat) = s.reg r := by
  rw [State.readByte_storeFirst hwf _ _ (by omega), State.dataAddr, if_pos (by omega), Nat.add_sub_cancel_left,
    BitVec.ofNat_toNat, BitVec.setWidth_eq]

/-- Fx55 stores to no cell outside its range (R119). -/
theorem State.readByte_storeFirst_outside (hwf : Memory.wf s.params s.mem = true) {x : Reg} {a : Nat}
    (hin : s.i.toNat + x.toNat ≤ 4095) (ha : a < s.dataAddr 0 ∨ s.dataAddr x.toNat < a) :
    (s.storeFirst (x.toNat + 1)).readByte a = s.readByte a := by
  simp only [State.dataAddr] at ha
  rw [State.readByte_storeFirst hwf _ _ (by omega), if_neg (by omega)]

/-- Settles O47: DATA_RANGE by the pre-check, else the loop of stores, which sees no advance, and the new I. -/
theorem registersStored : Obligations.RegistersStored := by
  intro x s hwf
  refine ⟨formatKF_toNat x 0x55#8, fun hout => exec_of_dataRange nofun (if_pos hout), fun hin => ?_⟩
  obtain ⟨hadv, hframe⟩ :=
    ((sameBut_storeFirst s.advance (x.toNat + 1)).then_setI (s.bulkIndex x)).after_advance (by decide)
  exact ⟨_, exec_storeRegs_of_range hin, hadv,
    fun _ hr => State.readByte_storeFirst_dataAddr (s := s.advance) hwf hin hr,
    fun _ ha => State.readByte_storeFirst_outside (s := s.advance) hwf hin ha, s.bulkIndex_toNat x, hframe⟩

/-! ## Fx65 -/

/-- Settles O48: DATA_RANGE by the pre-check, else the loop of loads, which sees no advance, and the new I. -/
theorem registersLoaded : Obligations.RegistersLoaded := by
  intro x s
  refine ⟨formatKF_toNat x 0x65#8, fun hout => exec_of_dataRange nofun (if_pos hout), fun hin => ?_⟩
  obtain ⟨hadv, hframe⟩ :=
    ((sameBut_loadFirst s.advance (x.toNat + 1)).then_setI (s.bulkIndex x)).after_advance (by decide)
  have hread := s.advance.reg_loadFirst (x.toNat + 1) x.isLt
  exact ⟨_, exec_loadRegs_of_range hin, hadv, fun r hr => (hread r).trans (if_pos (Nat.lt_succ_of_le hr)),
    fun r hr => (hread r).trans (if_neg (by omega)), s.bulkIndex_toNat x, hframe⟩

/-! ## Fx55, then Fx65 -/

/-- Settles O49: without the quirk I stays, so Fx65 reads the cells that Fx55 wrote. -/
theorem storeThenLoadRestores : Obligations.StoreThenLoadRestores := by
  intro x s t v hwf hplain hin hexec
  obtain ⟨-, -, hstore⟩ := registersStored x s hwf
  obtain ⟨t', hexec', -, hcells, -, hti, hframe⟩ := hstore hin
  obtain rfl : t' = t := Host.Outcome.next.inj (hexec'.symm.trans hexec)
  have hquirky : t'.quirky = s.quirky := hframe .quirky (by decide)
  have hi : t'.i = s.i := BitVec.eq_of_toNat_eq (by rw [hti, hplain]; rfl)
  obtain ⟨-, -, hload⟩ := registersLoaded x { t' with v := v }
  obtain ⟨u, hu, -, hregs, -, hui, hframe'⟩ := hload (hi ▸ hin)
  refine ⟨u, hu, fun r hr => ?_, BitVec.eq_of_toNat_eq ?_, hframe' .mem (by decide)⟩
  · have haddr : t'.dataAddr r.toNat = s.dataAddr r.toNat := by rw [State.dataAddr, hi, State.dataAddr]
    calc u.reg r = t'.readByte (t'.dataAddr r.toNat) := hregs r hr
      _ = s.reg r := by rw [haddr, hcells r hr]
  · simpa [hquirky, hplain, hi] using hui

end Sys2Proof.Machine
end

section
/-! SUPPORT. Display (R125 to R130): the cells a sprite covers against the pixels it lights, and the statements
`SpriteIsXored`, `DrawingTwiceRestores`, `OverhangRefusedUnderFail`, `ClearScreen` and `EmptySprite`. -/

namespace Sys2Proof.Machine

variable {s : State} {x y : Reg} {n : Nat}

/-! ## Cells and pixels -/

/-- The pixels of the grid are all the cells there are (R57). -/
theorem framebuffer_eq_of_pixels {s t : State} (h : ∀ c < 64, ∀ r < 32, t.pixel c r = s.pixel c r) :
    t.fb = s.fb := by
  refine framebuffer_ext fun q hq => ?_
  have hcell := h (q % 64) (by omega) (q / 64) (by omega)
  rwa [State.pixel, State.pixel, show q / 64 * 64 + q % 64 = q by omega] at hcell

/-- A set bit of the sprite falls on the cell of a pixel of the grid exactly when it lights that pixel (R126, R128). -/
theorem touches_iff_lit {c r : Nat} (hc : c < 64) (hr : r < 32) :
    (∃ row < n, ∃ col < 8, s.touches (s.originX x) (s.originY y) row col (r * 64 + c)) ↔ Lit s x y n c r := by
  simp only [State.touches, touchesAt, pixelCell_eq_some_iff hc hr]
  rfl

/-! ## The sprite drawn -/

/-- Drawing toggles the pixels that are lit, and no other pixel of the grid (R126, R130). -/
theorem State.pixel_drawn (hn : n ≤ 32) {c r : Nat} (hc : c < 64) (hr : r < 32) :
    (Lit s x y n c r → cellOn (s.drawn x y n).fb (r * 64 + c) = !s.pixel c r) ∧
      (¬ Lit s x y n c r → cellOn (s.drawn x y n).fb (r * 64 + c) = s.pixel c r) := by
  rw [← touches_iff_lit hc hr]
  exact State.plotRows_fb hn _

/-- Drawing collides exactly when a pixel that is lit was enabled (R130). -/
theorem State.drawn_hit (hn : n ≤ 32) :
    (s.drawn x y n).hit = true ↔ ∃ c < 64, ∃ r < 32, Lit s x y n c r ∧ s.pixel c r = true := by
  refine (State.plotRows_hit hn).trans ⟨?_, ?_⟩
  · rintro ⟨row, hrow, col, hcol, q, htouch, hon⟩
    have hq : q < 2048 := pixelCell_lt htouch.2
    have hcell : q / 64 * 64 + q % 64 = q := by omega
    refine ⟨q % 64, by omega, q / 64, by omega, ?_, ?_⟩
    · rw [← touches_iff_lit (by omega) (by omega), hcell]
      exact ⟨row, hrow, col, hcol, htouch⟩
    · rwa [State.pixel, hcell]
  · rintro ⟨c, hc, r, hr, hlit, hon⟩
    obtain ⟨row, hrow, col, hcol, htouch⟩ := (touches_iff_lit hc hr).mpr hlit
    exact ⟨row, hrow, col, hcol, _, htouch, hon⟩

/-! ## The instructions of the display -/

/-- A completed instruction changes nothing but what the rules let it write. -/
theorem sameBut_complete {i : Instr} {changed : List Part} (h : ∀ p, mayChange s i p → p ∈ changed) :
    SameBut changed s (s.complete i) := fun p hp => State.complete_same (mt (h p) hp)

/-- What 00E0 changes (R125). -/
theorem sameBut_cls (s : State) : SameBut [.fb, .draw, .pc, .unknown] s (s.complete .cls) := by
  refine sameBut_complete fun p hp => ?_
  cases p
  case fb | draw | pc | unknown => decide
  all_goals simp [mayChange, writesReg, faultCondition] at hp

/-- Dxyn with its sprite in memory and not refused completes (R88, R126, R128). -/
theorem exec_drw_of_range (hin : n = 0 ∨ s.i.toNat + n - 1 ≤ 4095) (hsprite : ¬ RefusedSprite s x y n) :
    exec (.drw x y n) s = .next (s.complete (.drw x y n)) := by
  have hr : s.refuses (.drw x y n) = false :=
    State.refuses_eq_false fun _ _ _ h => by cases h; exact hsprite
  exact exec_of_no_fault hr (if_neg (by omega))

/-- What Dxyn changes (R126). -/
theorem sameBut_drw (hin : n = 0 ∨ s.i.toNat + n - 1 ≤ 4095) :
    SameBut [.fb, .regs, .draw, .pc, .unknown] s (s.complete (.drw x y n)) := by
  have hnone : faultCondition s (.drw x y n) = none := if_neg (by omega)
  refine sameBut_complete fun p hp => ?_
  cases p
  case fb | regs | draw | pc | unknown => decide
  case beep | fault => exact absurd hnone hp
  all_goals simp [mayChange] at hp

/-- VF is the collision flag of the sprite drawn (R126). -/
theorem State.reg_complete_drw_regF (s : State) (x y : Reg) (n : Nat) :
    (s.complete (.drw x y n)).reg regF = flagByte (s.drawn x y n).hit := s.reg_setReg_self regF _

/-- No other register is written (R126). -/
theorem State.reg_complete_drw_ne {r : Reg} (hr : r ≠ regF) : (s.complete (.drw x y n)).reg r = s.reg r :=
  s.reg_setReg_ne hr _

/-- The word of Dxyn, on numbers (R63). -/
theorem encode_drw_toNat (x y : Reg) (hn : n < 16) :
    (encode (.drw x y n)).toNat = 0xD000 + 256 * x.toNat + 16 * y.toNat + n := by
  have hheight : (BitVec.ofNat 4 n).toNat = n := Nat.mod_eq_of_lt hn
  rw [encode, formatR_toNat, hheight]
  rfl

/-- Settles O51: the loops of the raster, read pixel by pixel, and the frame of Dxyn. -/
theorem spriteIsXored : Obligations.SpriteIsXored := by
  intro x y n s hwf hin hsprite
  have hn : n < 16 := of_decide_eq_true hwf
  have hhit := State.drawn_hit (s := s) (x := x) (y := y) (n := n) (by omega)
  refine ⟨encode_drw_toNat x y hn, _, exec_drw_of_range hin hsprite,
    fun c hc r hr => State.pixel_drawn (by omega) hc hr, fun hlit => ?_, fun hnone => ?_,
    fun r hr => State.reg_complete_drw_ne hr, rfl, rfl, s.pc_advance_toNat, (sameBut_drw hin).mono (by decide)⟩
  · rw [State.reg_complete_drw_regF, hhit.mpr hlit]
    rfl
  · rw [State.reg_complete_drw_regF, Bool.eq_false_iff.mpr (mt hhit.mp hnone)]
    rfl

/-- Settles O54: `exec` refuses by the test of R128 and in no other way. -/
theorem overhangRefusedUnderFail : Obligations.OverhangRefusedUnderFail := by
  intro x y n s
  have hrefuses : RefusedSprite s x y n ↔ s.refuses (.drw x y n) = true := by
    rw [refusedSprite_iff, State.refuses, Bool.and_eq_true, decide_eq_true_eq]
  rw [exec_eq, hrefuses]
  cases s.refuses (.drw x y n) with
  | true => exact iff_of_true rfl rfl
  | false => exact iff_of_false nofun nofun

/-- Settles O53: the first draw leaves everything that decides which pixels are lit, so the second toggles the same ones
back, and collides with those that the first turned on. -/
theorem drawingTwiceRestores : Obligations.DrawingTwiceRestores := by
  intro x y n s t hwf hin hexec
  have hsprite : ¬ RefusedSprite s x y n := fun h => by
    rw [(overhangRefusedUnderFail x y n s).mp h] at hexec
    cases hexec
  obtain ⟨-, t', hexec', hfirst, -⟩ := spriteIsXored x y n s hwf hin hsprite
  obtain rfl : t' = t := Host.Outcome.next.inj (hexec'.symm.trans hexec)
  obtain rfl : t' = s.complete (.drw x y n) := Host.Outcome.next.inj (hexec.symm.trans (exec_drw_of_range hin hsprite))
  have hlit : ∀ c r, Lit { s.complete (.drw x y n) with v := s.v } x y n c r ↔ Lit s x y n c r := fun _ _ => Iff.rfl
  obtain ⟨-, u, hu, hsecond, hhit, -, -, hdraw, -⟩ :=
    spriteIsXored x y n { s.complete (.drw x y n) with v := s.v } hwf hin hsprite
  simp only [hlit] at hsecond hhit
  have hfb : u.fb = s.fb := framebuffer_eq_of_pixels fun c hc r hr => by
    obtain ⟨htoggled, hkept⟩ := hfirst c hc r hr
    obtain ⟨htoggled', hkept'⟩ := hsecond c hc r hr
    by_cases h : Lit s x y n c r
    · exact (htoggled' h).trans ((congrArg not (htoggled h)).trans (Bool.not_not _))
    · exact (hkept' h).trans (hkept h)
  refine ⟨u, hu, fun c r => congrArg (cellOn · (r * 64 + c)) hfb, ?_, hdraw⟩
  rintro ⟨c, hc, r, hr, h, hwasOff⟩
  refine hhit ⟨c, hc, r, hr, h, ?_⟩
  exact ((hfirst c hc r hr).1 h).trans (congrArg not hwasOff)

/-- Settles O50: every cell of a cleared framebuffer is off. -/
theorem clearScreen : Obligations.ClearScreen := fun s =>
  ⟨rfl, s.complete .cls, rfl, fun _ _ => cellOn_clear _, rfl, rfl, s.pc_advance_toNat, sameBut_cls s⟩

/-- Settles O52: a sprite of no rows is in memory wherever I points, overhangs nowhere, and its raster is the
framebuffer as it was, with no collision. -/
theorem emptySprite : Obligations.EmptySprite := by
  intro x y s
  have hsprite : ¬ RefusedSprite s x y 0 := fun ⟨_, hpos, _⟩ => absurd hpos (Nat.lt_irrefl 0)
  exact ⟨encode_drw_toNat x y (by decide), _, exec_drw_of_range (.inl rfl) hsprite, s.reg_complete_drw_regF x y 0,
    fun r hr => State.reg_complete_drw_ne hr, rfl, rfl, s.pc_advance_toNat,
    (sameBut_drw (.inl rfl)).strike fun _ _ => rfl⟩

end Sys2Proof.Machine
end

section
/-! SUPPORT. Keypad (R135 to R138): the ends of the three key instructions and the statements `SkipOnKey` and
`WaitForKey`. -/

namespace Sys2Proof.Machine

variable {s : State} {x : Reg}

/-! ## Ex9E and ExA1 (R135, R136) -/

/-- The words of the E family (R61, R63). -/
theorem formatKE_toNat (x : Reg) (kk : Byte) : (formatK 0xE#4 x kk).toNat = 0xE000 + kk.toNat + 256 * x.toNat := by
  rw [formatK_toNat, BitVec.toNat_ofNat]
  omega

/-- A skip on a condition that is negated, on numbers (R136). -/
theorem State.pc_skipIf_not (s : State) (c : Bool) :
    (s.advance.skipIf (!c)).pc.toNat = (s.pc.toNat + if c then 2 else 4) % 65536 := by
  rw [State.pc_skipIf_toNat]
  cases c <;> rfl

theorem exec_skp_of_no_key (h : (s.reg x).toNat > 15) :
    exec (.skp x) s = .next (s.raise .keyRange (encode (.skp x))) := if_pos h

theorem exec_skp_of_key (h : (s.reg x).toNat ≤ 15) :
    exec (.skp x) s = .next (s.advance.skipIf (s.keyDown (s.reg x).toNat)) := if_neg (Nat.not_lt.mpr h)

theorem exec_sknp_of_no_key (h : (s.reg x).toNat > 15) :
    exec (.sknp x) s = .next (s.raise .keyRange (encode (.sknp x))) := if_pos h

theorem exec_sknp_of_key (h : (s.reg x).toNat ≤ 15) :
    exec (.sknp x) s = .next (s.advance.skipIf (!s.keyDown (s.reg x).toNat)) := if_neg (Nat.not_lt.mpr h)

/-- Settles O55: KEY_RANGE above 15; below, one test of the key's level, which ExA1 negates. -/
theorem skipOnKey : Obligations.SkipOnKey := by
  intro x s
  refine ⟨formatKE_toNat x 0x9E#8, formatKE_toNat x 0xA1#8, fun habove => ⟨?_, ?_⟩, fun hkey => ⟨?_, ?_⟩⟩
  · exact ⟨_, exec_skp_of_no_key habove, faulted_raise s .keyRange _⟩
  · exact ⟨_, exec_sknp_of_no_key habove, faulted_raise s .keyRange _⟩
  · exact ⟨_, exec_skp_of_key hkey, onlyPc_skipIf s _, s.pc_skipIf_toNat _⟩
  · exact ⟨_, exec_sknp_of_key hkey, onlyPc_skipIf s _, s.pc_skipIf_not _⟩

/-! ## Fx0A (R137) -/

theorem exec_ldVxK_of_key {k : Nat} (h : s.lowestKey = some k) :
    exec (.ldVxK x) s = .next (s.advance.setReg x (BitVec.ofNat 8 k)) := by
  show Host.Outcome.next (s.advance.takeKey x s.lowestKey) = _
  rw [h]
  rfl

theorem exec_ldVxK_of_no_key (h : s.lowestKey = none) :
    exec (.ldVxK x) s = .next (s.advance.setPc (s.advance.pc - 2)) := by
  show Host.Outcome.next (s.advance.takeKey x s.lowestKey) = _
  rw [h]
  rfl

/-- Settles O56: the least key down is the scan's answer, and its number fits a byte; with none down the step back
undoes the advance. -/
theorem waitForKey : Obligations.WaitForKey := by
  intro x s
  refine ⟨formatKF_toNat x 0x0A#8, fun k hk hdown hleast => ?_, fun hnone => ?_⟩
  · have hkey : s.lowestKey = some k := State.lowestKey_eq_some.mpr ⟨hk, hdown, hleast⟩
    refine ⟨_, exec_ldVxK_of_key hkey, ?_, onlyRegs_setReg s x _⟩
    rw [State.reg_setReg_self, BitVec.toNat_ofNat, Nat.mod_eq_of_lt (by omega)]
  · have hkey : s.lowestKey = none := State.lowestKey_eq_none.mpr hnone
    exact ⟨_, exec_ldVxK_of_no_key hkey, BitVec.add_sub_cancel s.pc 2, onlyPc_setPc s _⟩

end Sys2Proof.Machine
end

section
/-! SUPPORT. Timers (R140 to R143): a timer counts down at the end of every step of a good run that does not write it, and
the statements `TimerAccess`, `DelayCountdown` and `SoundBeepsOnce`. -/

namespace Sys2Proof.Machine

variable {s t : State} {i : Instr} {v n : Nat}

/-! ## Access (R140 to R142) -/

/-- Settles O57: the three instructions complete without a fault condition, and each one's own piece is its part of the
completed state. -/
theorem timerAccess : Obligations.TimerAccess := by
  intro x s
  refine ⟨formatKF_toNat x 0x07#8, formatKF_toNat x 0x15#8, formatKF_toNat x 0x18#8,
    ⟨_, rfl, State.reg_setReg_self _ x _, onlyRegs_setReg s x _⟩,
    ⟨s.complete (.ldDTVx x), rfl, rfl, s.advanced, sameBut_complete fun p hp => ?dt⟩,
    ⟨s.complete (.ldSTVx x), rfl, rfl, s.advanced, sameBut_complete fun p hp => ?st⟩⟩
  case dt | st =>
    -- Of each piece, either the list names it or the table of writers names other instructions.
    cases p <;> simp [mayChange, writesReg, faultCondition] at hp ⊢

/-! ## The steps that reach phase 5 (R86) -/

/-- A step that ends running reached phase 5, and found there every piece as the step before left it that its instruction
does not write and an unknown word does not either (R85, R86). -/
theorem exists_eq_tick_of_step {p : Part} (hp : p ∉ [Part.pc, .draw, .unknown, .unknownWord]) (hs : step s = .next t)
    (hgood : t.halted = false) (havoid : ∀ w i, s.fetch = some w → decode w = .ok i → ¬ mayChange s i p) :
    ∃ c : State, t = c.tick ∧ p.Same s c := by
  have hrun : t.halted ≠ true := Bool.eq_false_iff.mp hgood
  cases step_cases hs with
  | halted h e => exact (hrun (e ▸ h)).elim
  | fetchRange h hf e => exact (hrun (e ▸ s.halted_raise _ _)).elim
  | faulted h w i hf hd he ht => exact (hrun ht).elim
  | unknown h w u hf hd e => exact ⟨_, e, sameBut_runUnknown s u p hp⟩
  | completed h w i c hf hd he hc e => exact ⟨c, e, onlyTheNamedWriters i s c p he (havoid w i hf hd)⟩

/-- A step whose instruction is neither refused nor raises its fault ends in phase 5 of the completed instruction (R80). -/
theorem Executes.eq_tick_complete (hx : Executes s i) (hr : s.refuses i = false) (hc : faultCondition s i = none)
    (hs : step s = .next t) : t = (s.complete i).tick := by
  obtain ⟨hrun, w, hf, hd⟩ := hx
  have hgood : (s.complete i).halted = false := hrun
  rw [step_of_decode hrun hf hd, exec_of_no_fault hr hc, endStep_next, hgood] at hs
  exact (Host.Outcome.next.inj hs).symm

/-! ## The count-down (R143) -/

/-- The state is the end of a step whose phase 5 found the value `v` in the timer. -/
def TickFound (timer : State → Byte) (v : Nat) (t : State) : Prop := ∃ c : State, t = c.tick ∧ (timer c).toNat = v

theorem TickFound.dt (h : TickFound State.dt v t) : t.dt.toNat = v - 1 := by
  obtain ⟨c, rfl, rfl⟩ := h
  exact countDown_toNat c.dt

theorem TickFound.st (h : TickFound State.st v t) : t.st.toNat = v - 1 := by
  obtain ⟨c, rfl, rfl⟩ := h
  exact countDown_toNat c.st

theorem TickFound.beep (h : TickFound State.st v t) : t.beep = true ↔ v = 1 := by
  obtain ⟨c, rfl, rfl⟩ := h
  exact c.tick_spec.1

/-- A timer that phase 5 counts down, and that only the avoided instructions write, loses one count on each step of the
run (R143). -/
theorem StepsAvoiding.tickFound {avoided : Instr → Prop} {timer : State → Byte}
    (hcount : ∀ c : State, timer c.tick = countDown (timer c))
    (hkeep : ∀ {a b : State}, step a = .next b → b.halted = false →
      (∀ w i, a.fetch = some w → decode w = .ok i → ¬ avoided i) → ∃ c : State, b = c.tick ∧ timer c = timer a)
    (h : StepsAvoiding avoided n s t) (hfound : TickFound timer v s) : TickFound timer (v - n) t := by
  induction h with
  | none => exact hfound
  | more before runs avoids one good ih =>
    obtain ⟨c, rfl, hc⟩ := ih hfound
    obtain ⟨d, rfl, hd⟩ := hkeep one good avoids
    refine ⟨d, rfl, ?_⟩
    rw [hd, hcount, countDown_toNat, hc, Nat.sub_sub]

/-- Settles O58: the writing step's phase 5 finds `V[x]` in DT, and DT is the piece that only Fx15 writes. -/
theorem delayCountdown : Obligations.DelayCountdown := by
  intro x s t u j hx hs hrun
  have hwrite : TickFound State.dt (s.reg x).toNat t := ⟨_, hx.eq_tick_complete rfl rfl hs, rfl⟩
  have hlast := hrun.tickFound State.tick_dt (exists_eq_tick_of_step (p := .dt) (by decide)) hwrite
  have hdt : u.dt.toNat = (s.reg x).toNat - 1 - j := hlast.dt.trans (Nat.sub_right_comm ..)
  refine ⟨hdt, fun x' u' hx' hs' => ?_⟩
  have hread : u'.reg x' = u.dt := hx'.eq_tick_complete rfl rfl hs' ▸ State.reg_setReg_self u x' u.dt
  rw [hread, hdt]

/-- Settles O59: the writing step's phase 5 finds `V[x]` in ST, and ST is the piece that only Fx18 writes; the beep is for
the value 1 found there. -/
theorem soundBeepsOnce : Obligations.SoundBeepsOnce := by
  intro x s t u j hx hs hrun
  have hwrite : TickFound State.st (s.reg x).toNat t := ⟨_, hx.eq_tick_complete rfl rfl hs, rfl⟩
  have hlast := hrun.tickFound State.tick_st (exists_eq_tick_of_step (p := .st) (by decide)) hwrite
  have hbeep : u.beep = true ↔ (s.reg x).toNat - j = 1 := hlast.beep
  exact ⟨hbeep.trans (by omega), hlast.st.trans (Nat.sub_right_comm ..)⟩

end Sys2Proof.Machine
end

section
/-! SUPPORT. Runs of steps and key updates from a halted block (R153, R154): the statement `HaltedUntilReset`. -/

namespace Sys2Proof.Machine

variable {s t : State} {m : Move} {ms : List Move}

/-! ## Runs of steps and key updates -/

theorem SameBut.refl (changed : List Part) (s : State) : SameBut changed s s := by
  intro p _
  cases p
  case regs | stack | mem => exact fun _ => rfl
  case fb => exact fun _ _ => rfl
  case fault => exact ⟨rfl, rfl, rfl⟩
  all_goals rfl

/-- A key update changes the key levels only (R176). -/
theorem sameBut_keys (s : State) (levels : Keypad) : SameBut [.keypad] s { s with keypad := levels } := by
  intro p hp
  cases p
  case keypad => exact absurd (by decide) hp
  case regs | stack | mem => exact fun _ => rfl
  case fb => exact fun _ _ => rfl
  case fault => exact ⟨rfl, rfl, rfl⟩
  all_goals rfl

/-- A run begins with its first move. -/
theorem State.runMoves_cons (h : s.move m = .next t) (ms : List Move) : s.runMoves (m :: ms) = t.runMoves ms := by
  rw [State.runMoves, h]

/-- When every step and key update from a state of the kind `P` answers a state of that kind and changes no more than the
named pieces, so does every run of them. -/
theorem State.exists_runMoves {P : State → Prop} {changed : List Part}
    (hmove : ∀ {a : State} {m : Move}, P a → m.isKeysOrStep = true →
      ∃ b, a.move m = .next b ∧ P b ∧ SameBut changed a b)
    (hs : P s) (hms : ms.all Move.isKeysOrStep = true) :
    ∃ t, s.runMoves ms = .next t ∧ P t ∧ SameBut changed s t := by
  induction ms generalizing s with
  | nil => exact ⟨s, rfl, hs, .refl changed s⟩
  | cons m ms ih =>
    obtain ⟨hm, hrest⟩ := Bool.and_eq_true_iff.mp (List.all_cons ▸ hms)
    obtain ⟨u, hfirst, hu, hsame⟩ := hmove hs hm
    obtain ⟨t, hrun, ht, hsame'⟩ := ih hu hrest
    exact ⟨t, (State.runMoves_cons hfirst ms).trans hrun, ht, hsame.trans hsame'⟩

/-! ## The halted block -/

/-- One step or key update leaves a halted block halted: the step only clears the outputs (R87), the update only presents
levels (R176). -/
theorem exists_move_of_halted (h : s.halted = true) (hm : m.isKeysOrStep = true) :
    ∃ t, s.move m = .next t ∧ t.halted = true ∧ SameBut [.draw, .beep, .unknown, .keypad] s t := by
  cases m with
  | launch p rom quirky => cases hm
  | keys levels => exact ⟨{ s with keypad := levels }, rfl, h, (sameBut_keys s levels).mono (by decide)⟩
  | step => exact ⟨s.idle, step_of_halted h, h, (sameBut_idle s).mono (by decide)⟩

/-- Settles O12, by induction on the moves: each one keeps the halt (`exists_move_of_halted`). -/
theorem haltedUntilReset : Obligations.HaltedUntilReset := fun _ _ hhalt hms =>
  State.exists_runMoves exists_move_of_halted hhalt hms

end Sys2Proof.Machine
end

section
/-! SUPPORT. The resting state (R183): its step is the jump to its own address, and the statement `RestingStays`. -/

namespace Sys2Proof.Machine

variable {s : State} {m : Move}

/-! ## The step of a resting block -/

/-- The two bytes at `pc` are the word of the jump to `pc`, whose address fits its 12 bits (R91, R183). -/
theorem Resting.executes (h : Resting s) : ∃ nnn, Executes s (.jp nnn) ∧ zext16 nnn = s.pc := by
  obtain ⟨hrun, hpc, hword⟩ := h
  have hnnn : (s.pc.setWidth 12).toNat = s.pc.toNat := by
    rw [BitVec.toNat_setWidth]
    omega
  have hencode : encode (.jp (s.pc.setWidth 12)) =
      wordOfBytes (s.readByte s.pc.toNat) (s.readByte (s.pc.toNat + 1)) := by
    apply BitVec.eq_of_toNat_eq
    rw [wordOfBytes_toNat, hword, encode, formatA_toNat, hnnn]
    rfl
  refine ⟨s.pc.setWidth 12, ⟨hrun, _, State.fetch_eq_some.mpr ⟨hpc, hencode.symm⟩, decodeOfEncode _ rfl⟩, ?_⟩
  apply BitVec.eq_of_toNat_eq
  rw [zext16_toNat (by decide), hnnn]

theorem Resting.step_eq (h : Resting s) : step s = .next (s.advance.setPc s.pc).tick := by
  obtain ⟨nnn, ⟨hrun, w, hfetch, hd⟩, hpc⟩ := h.executes
  have hgood : (s.advance.setPc s.pc).halted = false := hrun
  rw [step_of_decode hrun hfetch hd]
  show endStep (.next (s.advance.setPc (zext16 nnn))) = _
  rw [hpc, endStep_next, hgood]
  rfl

/-! ## What a resting block keeps -/

/-- What the steps and key updates of a resting block can change (R183). -/
abbrev restingChanges : List Part := [.dt, .st, .beep, .draw, .unknown, .keypad]

/-- A resting block that shows no output of a step: it neither drew nor met an unknown word. -/
structure Settled (s : State) : Prop where
  resting : Resting s
  outputs : s.draw = false ∧ s.unknown = false

/-- A step settles a resting block: the jump back undoes the advance, so that beyond the cleared outputs only phase 5
changes anything (R86, R91), and whether the block rests depends on neither. -/
theorem Resting.exists_step (h : Resting s) : ∃ t, step s = .next t ∧ Settled t ∧ SameBut restingChanges s t := by
  obtain ⟨hdraw, hunknown, hjump⟩ := onlyPc_setPc s s.pc
  have hback : SameBut [.draw, .unknown] s (s.advance.setPc s.pc) := hjump.strike rfl
  exact ⟨_, h.step_eq, ⟨h, hdraw, hunknown⟩, (hback.mono (by decide)).trans ((sameBut_tick _).mono (by decide))⟩

theorem Resting.exists_move (h : Resting s) (hm : m.isKeysOrStep = true) :
    ∃ t, s.move m = .next t ∧ Resting t ∧ SameBut restingChanges s t := by
  cases m with
  | launch p rom quirky => cases hm
  | keys levels => exact ⟨{ s with keypad := levels }, rfl, h, (sameBut_keys s levels).mono (by decide)⟩
  | step =>
    obtain ⟨t, hstep, ht, hsame⟩ := h.exists_step
    exact ⟨t, hstep, ht.resting, hsame⟩

theorem Settled.exists_move (h : Settled s) (hm : m.isKeysOrStep = true) :
    ∃ t, s.move m = .next t ∧ Settled t ∧ SameBut restingChanges s t := by
  cases m with
  | launch p rom quirky => cases hm
  | keys levels =>
    exact ⟨{ s with keypad := levels }, rfl, ⟨h.resting, h.outputs⟩, (sameBut_keys s levels).mono (by decide)⟩
  | step => exact h.resting.exists_step

/-- Settles O60: up to the first step the block rests, that step settles it, and it stays settled after. -/
theorem restingStays : Obligations.RestingStays := by
  intro s ms hrest hms
  by_cases hstep : .step ∈ ms
  · obtain ⟨before, after, rfl⟩ := List.append_of_mem hstep
    obtain ⟨hbefore, hstepAfter⟩ := Bool.and_eq_true_iff.mp (List.all_append ▸ hms)
    obtain ⟨-, hafter⟩ := Bool.and_eq_true_iff.mp (List.all_cons ▸ hstepAfter)
    obtain ⟨a, hrun, ha, hsame⟩ := State.exists_runMoves Resting.exists_move hrest hbefore
    obtain ⟨b, hone, hb, hsame'⟩ := ha.exists_step
    obtain ⟨t, hrun', ht, hsame''⟩ := State.exists_runMoves Settled.exists_move hb hafter
    refine ⟨t, ?_, ht.resting, (hsame.trans hsame').trans hsame'', fun _ => ht.outputs⟩
    rw [State.runMoves_append hrun, State.runMoves_cons (m := .step) hone, hrun']
  · obtain ⟨t, hrun, ht, hsame⟩ := State.exists_runMoves Resting.exists_move hrest hms
    exact ⟨t, hrun, ht, hsame, fun h => absurd h hstep⟩

end Sys2Proof.Machine
end

section
/-! SUPPORT. When a launch is refused, what an accepted one leaves, and the invariant over every run of the host: the
statements `LongRomIsRefused` and `HostRunsKeepInv`. -/

namespace Sys2Proof.Machine

variable {s t : State} {p : Params} {rom : List Byte} {quirky : Bool}

/-- Settles O27: the length is the first thing a launch tests. -/
theorem longRomIsRefused : Obligations.LongRomIsRefused := fun _ _ _ _ hlong => if_pos hlong

/-- A launch is accepted under the premises of reset only, and then leaves what `State.launch_eq` says (R20, R172). -/
theorem State.launch_inv (h : s.launch p rom quirky = .next t) :
    p.onColor ≠ p.offColor ∧ t = { State.reset with
      mem := loadRom p rom 0x200 [], quirky := quirky, keypad := s.keypad, params := p, draws := s.draws } := by
  by_cases hfit : rom.length ≤ 3584
  · by_cases hcol : p.onColor = p.offColor
    · rw [State.launch, if_neg (by omega), if_pos hcol] at h
      cases h
    · rw [State.launch_eq hfit hcol] at h
      exact ⟨hcol, (Host.Outcome.next.inj h).symm⟩
  · rw [longRomIsRefused s p rom quirky (by omega)] at h
    cases h

/-! ## The invariant -/

/-- A launch establishes the invariant, whatever the state before it: the fields are those of the reset state, but for
memory, which the stores keep canonical, and the colours, which the launch tests. -/
theorem Inv.launch (h : s.launch p rom quirky = .next t) : Inv t := by
  obtain ⟨hcol, rfl⟩ := State.launch_inv h
  exact {
    memory := loadRom_wf rfl
    sp := resetMeetsInv.sp
    returns := resetMeetsInv.returns
    pc := resetMeetsInv.pc
    cause := resetMeetsInv.cause
    halted := resetMeetsInv.halted
    running := resetMeetsInv.running
    outputs := resetMeetsInv.outputs
    colours := hcol }

/-- Every move of the host keeps the invariant; it says nothing of the key levels (R176). -/
theorem Inv.move {m : Move} (h : Inv s) (hm : s.move m = .next t) : Inv t := by
  cases m with
  | launch p rom quirky => exact Inv.launch hm
  | keys levels =>
    cases hm
    exact { h with }
  | step => exact stepKeepsInv s t h hm

/-- What every move keeps, every run keeps. -/
theorem State.runMoves_keeps {P : State → Prop} {ms : List Move}
    (hmove : ∀ {a b : State} {m : Move}, P a → a.move m = .next b → P b) (hs : P s) (h : s.runMoves ms = .next t) :
    P t := by
  induction ms generalizing s with
  | nil => exact Host.Outcome.next.inj h ▸ hs
  | cons m ms ih =>
    cases hm : s.move m with
    | next u => exact ih (hmove hs hm) (State.runMoves_cons hm ms ▸ h)
    | fault r => rw [State.runMoves, hm] at h; cases h
    | refused r => rw [State.runMoves, hm] at h; cases h

/-- Settles O19: the launch establishes the invariant, and each move after it keeps it. -/
theorem hostRunsKeepInv : Obligations.HostRunsKeepInv := fun _ _ _ _ _ _ _ hlaunch hrun =>
  State.runMoves_keeps Inv.move (Inv.launch hlaunch) hrun

end Sys2Proof.Machine
end

section
/-! SUPPORT. The run with the empty ROM (R173): the block slides through zeros to the end of memory and faults there; the
statement `EmptyRomRun`. -/

namespace Sys2Proof.Machine

variable (s : State) (p : Params) (quirky : Bool)

/-! ## The states of the run -/

/-- What a launch with the empty ROM leaves (R173). -/
def State.bare : State := { State.reset with quirky := quirky, keypad := s.keypad, params := p, draws := s.draws }

variable {s p quirky}

theorem State.eq_bare_of_launch {t : State} (h : s.launch p [] quirky = .next t) : t = s.bare p quirky :=
  (State.launch_inv h).2

/-- Without a ROM every cell from 0x200 on is 0 (R29, R173). -/
theorem State.readByte_bare {a : Nat} (ha : 0x200 ≤ a) : (s.bare p quirky).readByte a = 0 := by
  have hfont := fontBase_addr_le p.fontBase
  have hread : (s.bare p quirky).readByte a = _ := read_launch (p := p) (rom := []) (by decide) a
  rw [hread, if_neg (by omega), if_neg (by simp)]

variable (s p quirky)

/-- The block after `n` unknown words. -/
def State.slid (n : Nat) : State :=
  { s.bare p quirky with pc := BitVec.ofNat 16 (0x200 + 2 * n), unknown := decide (0 < n) }

/-- The block after `n` steps: 1792 unknown words reach 0x1000, where the next fetch faults (R173). -/
def State.emptyRun (n : Nat) : State :=
  if n ≤ 1792 then s.slid p quirky n else (s.slid p quirky 1792).raise .fetchRange 0

theorem State.pc_slid {n : Nat} (hn : n ≤ 1792) : (s.slid p quirky n).pc.toNat = 0x200 + 2 * n := by
  show (BitVec.ofNat 16 (0x200 + 2 * n)).toNat = _
  rw [BitVec.toNat_ofNat]
  omega

theorem sameBut_slid (n : Nat) : SameBut [.pc, .unknown] (s.bare p quirky) (s.slid p quirky n) := by
  intro q hq
  cases q
  case pc | unknown => exact absurd (by decide) hq
  case regs | stack | mem => exact fun _ => rfl
  case fb => exact fun _ _ => rfl
  case fault => exact ⟨rfl, rfl, rfl⟩
  all_goals rfl

/-- The fault clears the report of the word before it, so that the record and `pc` are all that differs from the launch. -/
theorem sameBut_raise_slid (n : Nat) :
    SameBut [.pc, .fault] (s.bare p quirky) ((s.slid p quirky n).raise .fetchRange 0) := by
  obtain ⟨-, -, -, -, -, -, hfault⟩ := faulted_raise (s.slid p quirky n) .fetchRange 0
  have hsame : SameBut [.draw, .beep, .unknown, .pc, .fault] (s.bare p quirky) _ :=
    ((sameBut_slid s p quirky n).mono (by decide)).trans (hfault.mono (by decide))
  exact ((hsame.strike rfl).strike rfl).strike rfl

/-! ## The steps of the run -/

/-- One unknown word: phase 5 finds both timers 0, so that only `pc` moves (R85, R86). -/
theorem step_slid {n : Nat} (hn : n < 1792) : step (s.slid p quirky n) = .next (s.slid p quirky (n + 1)) := by
  have hpc := s.pc_slid p quirky (Nat.le_of_lt hn)
  have hfetch : (s.slid p quirky n).fetch = some 0 := by
    refine State.fetch_eq_some.mpr ⟨by omega, ?_⟩
    show wordOfBytes ((s.bare p quirky).readByte _) ((s.bare p quirky).readByte _) = 0
    rw [State.readByte_bare (by omega), State.readByte_bare (by omega)]
    rfl
  have hnext : (s.slid p quirky n).advance.pc = (s.slid p quirky (n + 1)).pc := by
    apply BitVec.eq_of_toNat_eq
    rw [State.pc_advance_toNat, hpc, s.pc_slid p quirky hn]
    omega
  rw [step_of_unknown rfl hfetch rfl]
  show Host.Outcome.next { s.bare p quirky with pc := (s.slid p quirky n).advance.pc, unknown := true } = _
  rw [hnext]
  rfl

theorem step_emptyRun (n : Nat) : step (s.emptyRun p quirky n) = .next (s.emptyRun p quirky (n + 1)) := by
  unfold State.emptyRun
  rcases Nat.lt_trichotomy n 1792 with hlt | rfl | hgt
  · rw [if_pos (by omega), if_pos (by omega)]
    exact step_slid s p quirky hlt
  · have hpc := s.pc_slid p quirky (Nat.le_refl 1792)
    rw [if_pos (by omega), if_neg (by omega)]
    exact step_of_fetch_none rfl (State.fetch_eq_none.mpr (by omega))
  · rw [if_neg (by omega), if_neg (by omega)]
    exact step_of_halted (State.halted_raise _ _ _)

/-- A sequence of states that each step follows is the run of the steps. -/
theorem State.runMoves_replicate_step {f : Nat → State} (h : ∀ n, step (f n) = .next (f (n + 1))) (n : Nat) :
    (f 0).runMoves (List.replicate n .step) = .next (f n) := by
  induction n with
  | zero => rfl
  | succ n ih =>
    rw [List.replicate_succ', State.runMoves_append ih]
    exact State.runMoves_cons (m := .step) (h n) []

/-- Settles O28: the run is `State.emptyRun`, which is the block after `n` words, or the block the fault halted. -/
theorem emptyRomRun : Obligations.EmptyRomRun := by
  intro s t p quirky n hlaunch
  have hrun : t.runMoves (List.replicate n .step) = .next (s.emptyRun p quirky n) :=
    State.eq_bare_of_launch hlaunch ▸ State.runMoves_replicate_step (step_emptyRun s p quirky) n
  rw [hrun, State.eq_bare_of_launch hlaunch, State.emptyRun]
  constructor
  · intro hpos hle
    rw [if_pos hle]
    exact ⟨_, rfl, rfl, s.pc_slid p quirky hle, decide_eq_true hpos, rfl, sameBut_slid s p quirky n⟩
  · intro hgt
    rw [if_neg (by omega)]
    exact ⟨_, rfl, rfl, rfl, rfl, rfl, rfl, sameBut_raise_slid s p quirky 1792⟩

end Sys2Proof.Machine
end
